-- ==== Sys2Proof/Word.lean ====
section
/-! DEFINITION. The one word type of the machine (R8, R11): every register, memory cell, address and ALU result is
a byte. -/

namespace Sys2Proof

/-- A byte: data word, memory cell and address alike (R8: data width 8, address width 8). Bit 7 is the most
significant bit (R10). -/
abbrev Byte := BitVec 8

/-- The four bits that select an instruction (R90, field `op`). -/
abbrev Nibble := BitVec 4

end Sys2Proof
end

