-- ==== Sys2Proof/Syntax.lean ====
section
/-! DEFINITION. The eleven instructions of `spec/opcode_table.json`, one constructor a row. -/

namespace Sys2Proof

/-- An instruction of the baseline variant. `addr` is the operand byte of format F1 (R90), an absolute address used
as it is (R94). The low nibble of the opcode byte is not part of an instruction: decode ignores it (R92). -/
inductive Instr where
  /-- NOP (R210). -/
  | nop
  /-- STA (R170): store AC to the cell `addr`. -/
  | sta (addr : Byte)
  /-- LDA (R171): load the cell `addr` into AC. -/
  | lda (addr : Byte)
  /-- ADD (R180): add the cell `addr` into AC. -/
  | add (addr : Byte)
  /-- OR (R181): or the cell `addr` into AC. -/
  | or (addr : Byte)
  /-- AND (R182): and the cell `addr` into AC. -/
  | and (addr : Byte)
  /-- NOT (R183): complement AC. -/
  | not
  /-- JMP (R200): jump to `addr`. -/
  | jmp (addr : Byte)
  /-- JN (R201): jump to `addr` if N. -/
  | jn (addr : Byte)
  /-- JZ (R202): jump to `addr` if Z. -/
  | jz (addr : Byte)
  /-- HLT (R211). -/
  | hlt
  deriving DecidableEq, Repr

end Sys2Proof
end

