-- ==== Sys2Proof/WellFormed.lean ====
section
/-! DEFINITION. Well-formedness of instructions and of instruction words, stated apart from the decoder: R96's list
of illegal byte values, R93's lengths and R123's canonical opcode bytes. -/

namespace Sys2Proof

/-- Every operand value is legal (R97: the operand byte of an F1 instruction may take any of its 256 values), and an
operand is a byte by its type, so every instruction is well formed: there is no reserved operand value (`93`, Notes). -/
def Instr.wellFormed : Instr → Bool
  | .nop => true
  | .sta _ => true
  | .lda _ => true
  | .add _ => true
  | .or _ => true
  | .and _ => true
  | .not => true
  | .jmp _ => true
  | .jn _ => true
  | .jz _ => true
  | .hlt => true

/-- R96: the illegal opcode bytes are 0x70–0x7F and 0xB0–0xEF, and no others. -/
def illegalOpcode (b : Byte) : Bool :=
  (0x70 ≤ b.toNat && b.toNat ≤ 0x7F) || (0xB0 ≤ b.toNat && b.toNat ≤ 0xEF)

/-- R93, R95: the opcode bytes of one-byte instructions: NOP 0x00–0x0F, NOT 0x60–0x6F, HLT 0xF0–0xFF. -/
def oneByteOpcode (b : Byte) : Bool :=
  b.toNat ≤ 0x0F || (0x60 ≤ b.toNat && b.toNat ≤ 0x6F) || 0xF0 ≤ b.toNat

/-- R92, R123: the opcode byte as the assembler emits it has low nibble 0. -/
def lowNibbleZero (b : Byte) : Bool := b.toNat % 16 == 0

/-- The words the assembler emits for one instruction (R90, R123): a legal opcode byte with low nibble 0, then one
operand byte if and only if the opcode is not a one-byte opcode. -/
def canonicalWord : List Byte → Bool
  | [b] => !illegalOpcode b && lowNibbleZero b && oneByteOpcode b
  | [b, _] => !illegalOpcode b && lowNibbleZero b && !oneByteOpcode b
  | _ => false

end Sys2Proof
end

