-- ==== Sys2Proof/Decode.lean ====
section
/-! DEFINITION. The decode ROM (R95), its two look-ups (R98), the decoder, and after it the encoder (R90, R123).
Decoding is total on any list of bytes and rejects by name (R96, R97). -/

namespace Sys2Proof

/-! ## The decode ROM -/

/-- The mnemonics of R95, in upper case as the spec writes them. -/
inductive Mnemonic where
  | nop | sta | lda | add | or | and | not | jmp | jn | jz | hlt
  deriving DecidableEq, Repr

/-- The ALU operations of R150. -/
inductive AluOp where
  | pass | add | or | and | not
  deriving DecidableEq, Repr

/-- The column "memory data access" of R95. -/
inductive DataAccess where
  | none | readOperand | writeAc
  deriving DecidableEq, Repr

/-- The column "PC action after increment" of R95. -/
inductive PcAction where
  | none | jump | jumpIfN | jumpIfZ
  deriving DecidableEq, Repr

/-- One valid entry of the decode ROM (R95). -/
structure RomEntry where
  mnemonic : Mnemonic
  /-- `oc`, the operand count: 0 or 1. -/
  operandCount : Nat
  /-- `opcodeByte`, the byte the assembler emits. -/
  opcodeByte : Byte
  aluOp : Option AluOp
  /-- "writes AC,N,Z". -/
  writesFlags : Bool
  dataAccess : DataAccess
  pcAction : PcAction
  halts : Bool
  deriving DecidableEq, Repr

/-- The 16 entries of R95 in the order of their nibble; `none` is an entry whose `valid` is no. OR's and AND's operand
and NOP's and HLT's lack of one are the spec's decisions D10 and D11 (log entry 10). -/
def rom : List (Option RomEntry) :=
  [ some ⟨.nop, 0, 0x00, none, false, .none, .none, false⟩
  , some ⟨.sta, 1, 0x10, none, false, .writeAc, .none, false⟩
  , some ⟨.lda, 1, 0x20, some .pass, true, .readOperand, .none, false⟩
  , some ⟨.add, 1, 0x30, some .add, true, .readOperand, .none, false⟩
  , some ⟨.or, 1, 0x40, some .or, true, .readOperand, .none, false⟩
  , some ⟨.and, 1, 0x50, some .and, true, .readOperand, .none, false⟩
  , some ⟨.not, 0, 0x60, some .not, true, .none, .none, false⟩
  , none
  , some ⟨.jmp, 1, 0x80, none, false, .none, .jump, false⟩
  , some ⟨.jn, 1, 0x90, none, false, .none, .jumpIfN, false⟩
  , some ⟨.jz, 1, 0xA0, none, false, .none, .jumpIfZ, false⟩
  , none
  , none
  , none
  , none
  , some ⟨.hlt, 0, 0xF0, none, false, .none, .none, true⟩ ]

/-- `ROM[op]` (R95). -/
def romEntry (op : Nibble) : Option RomEntry := (rom[op.toNat]?).join

/-- The opcode field, bits 7..4 of byte 0 (R91). -/
def opcodeNibble (b : Byte) : Nibble := b.extractLsb' 4 4

/-- `lookupByOpcode(byte)` (R98): it compares only the top nibble. -/
def lookupByOpcode (b : Byte) : Option RomEntry := romEntry (opcodeNibble b)

/-- The assembler's spelling of a mnemonic (R99). The spellings do not touch an encoding or a meaning. -/
def spelling : Mnemonic → List Char
  | .nop => ['n', 'o', 'p']
  | .sta => ['s', 't', 'a']
  | .lda => ['l', 'd', 'a']
  | .add => ['a', 'd', 'd']
  | .or => ['o', 'r']
  | .and => ['a', 'n', 'd']
  | .not => ['n', 'o', 't']
  | .jmp => ['j', 'm', 'p']
  | .jn => ['j', 'n']
  | .jz => ['j', 'z']
  | .hlt => ['h', 'l', 't']

/-- Lower case of the letters A to Z; every other character is kept (log entry 11). -/
def lowerChar (c : Char) : Char :=
  if 'A' ≤ c ∧ c ≤ 'Z' then Char.ofNat (c.toNat + 32) else c

/-- `lookupByMnemonic(string)` (R98): case-insensitive, and it matches exactly. -/
def lookupByMnemonic (name : List Char) : Option RomEntry :=
  (rom.filterMap id).find? fun e => spelling e.mnemonic == name.map lowerChar

/-! ## The decoder -/

/-- Why a list of bytes does not begin with an instruction. -/
inductive DecodeError where
  /-- The list is empty: no opcode byte. A fetch never meets this (memory has every cell, R64). -/
  | noOpcode
  /-- The opcode byte matches no entry of the decode ROM (R96): the engine raises DecodeFault (R221). -/
  | illegalOpcode (b : Byte)
  /-- An F1 opcode byte ends the list. A fetch never meets this (R145: the operand is read at `A + 1` mod 256). -/
  | operandMissing (b : Byte)
  deriving DecidableEq, Repr

/-- What decoding answers: an instruction and the bytes after it, or a rejection by name. -/
inductive Decoded where
  | ok (i : Instr) (rest : List Byte)
  | error (e : DecodeError)
  deriving DecidableEq, Repr

/-- The instruction and the bytes after it, if there is one. -/
def Decoded.instr? : Decoded → Option (Instr × List Byte)
  | .ok i rest => some (i, rest)
  | .error _ => none

/-- The instruction of an entry's mnemonic with operand `opr`; an instruction whose operand count is 0 does not use
it (R145). -/
def instrOf (m : Mnemonic) (opr : Byte) : Instr :=
  match m with
  | .nop => .nop
  | .sta => .sta opr
  | .lda => .lda opr
  | .add => .add opr
  | .or => .or opr
  | .and => .and opr
  | .not => .not
  | .jmp => .jmp opr
  | .jn => .jn opr
  | .jz => .jz opr
  | .hlt => .hlt

/-- Reads one instruction from the front of a list of bytes and answers it with the bytes after it. The entry that
byte 0 selects fixes the length (R93); the operand byte follows the opcode byte (R65, R90). -/
def decode : List Byte → Decoded
  | [] => .error .noOpcode
  | ir :: rest =>
    match lookupByOpcode ir with
    | none => .error (.illegalOpcode ir)
    | some e =>
      if e.operandCount = 0 then .ok (instrOf e.mnemonic 0) rest
      else
        match rest with
        | [] => .error (.operandMissing ir)
        | opr :: rest' => .ok (instrOf e.mnemonic opr) rest'

/-- The fixed interface of the host's check: the instruction whose bits are `w`, byte 0 in bits 7..0 and byte 1 in
bits 15..8, every bit at `nbits` and above read as 0. -/
def decodeTableWord (nbits w : Nat) : Option Instr :=
  let v := w % 2 ^ nbits
  match decode [BitVec.ofNat 8 v, BitVec.ofNat 8 (v / 256)] with
  | .ok i _ => some i
  | .error _ => none

/-! ## The encoder -/

/-- The opcode byte the assembler emits (R95, column `opcodeByte`; low nibble 0, R123, D13). -/
def opcodeByteOf : Instr → Byte
  | .nop => 0x00
  | .sta _ => 0x10
  | .lda _ => 0x20
  | .add _ => 0x30
  | .or _ => 0x40
  | .and _ => 0x50
  | .not => 0x60
  | .jmp _ => 0x80
  | .jn _ => 0x90
  | .jz _ => 0xA0
  | .hlt => 0xF0

/-- The operand byte of an F1 instruction (R90, R94); none for format F0. -/
def operandOf : Instr → Option Byte
  | .nop => none
  | .sta a => some a
  | .lda a => some a
  | .add a => some a
  | .or a => some a
  | .and a => some a
  | .not => none
  | .jmp a => some a
  | .jn a => some a
  | .jz a => some a
  | .hlt => none

/-- The bytes of an instruction, the opcode byte first (R65, R90, R123). -/
def encode (i : Instr) : List Byte :=
  match operandOf i with
  | none => [opcodeByteOf i]
  | some a => [opcodeByteOf i, a]

/-- The length of an instruction in bytes: 1 for F0, 2 for F1 (R93). -/
def instrLength (i : Instr) : Nat := (encode i).length

end Sys2Proof
end

