-- ==== Sys2Proof/Config.lean ====
section
/-! DEFINITION. The four named parameters of R9. No free value stands here: the spec leaves no value of the machine
undefined (`93_implementation_defined.md`, Notes). -/

namespace Sys2Proof

/-- The named parameters of R9. Each is a point the source leaves open and the spec decides. -/
structure Config where
  /-- `RESET_N`, the negative flag after reset or clear registers (D4). -/
  resetN : Bool
  /-- `RESET_Z`, the zero flag after reset or clear registers (D4). -/
  resetZ : Bool
  /-- `CLEAR_MEMORY_RESTORES_PRESETS`: does clear memory write cells 128 to 130 again (D14)? -/
  clearMemoryRestoresPresets : Bool
  /-- `FAULT_CODE_DECODE`, the code of DecodeFault in the status word (D7); code 0 means no fault. -/
  faultCodeDecode : BitVec 2
  deriving DecidableEq, Repr

/-- The values R9 takes. UNVERIFIED (log entries 3, 8 and 9: the spec's own decisions D4, D14 and D7): unsafe. -/
def Config.decided : Config where
  resetN := false
  resetZ := true
  clearMemoryRestoresPresets := false
  faultCodeDecode := 1

end Sys2Proof
end

