-- ==== Sys2Proof/Machine/State.lean ====
section
/-! DEFINITION. The machine state of R30, as plain data, the reasons a step can stop, and the state after reset
(R250). -/

namespace Sys2Proof.Machine

/-- The run state `RUN` (R42). -/
inductive RunState where
  | halted
  | running
  deriving DecidableEq, Repr

/-- The fault status `FAULT` (R43). -/
inductive FaultStatus where
  /-- No fault is recorded. -/
  | none
  /-- DecodeFault(addr, opcode): the address the undecodable byte was fetched from, and the whole byte. -/
  | decodeFault (addr opcode : Byte)
  deriving DecidableEq, Repr

/-- The 256 cells of `MEM` (R46, R60) in the one canonical form `Memory.wf` says: the cells that differ from the
power-on content (`Memory.powerOn`, R70), by rising address. An unlisted address reads as its power-on content
(log entry 5). -/
abbrev Memory := List Host.Cell

/-- The machine state: the tuple of R30 and nothing else. The decode ROM is a constant (R47), and the latches of R48
do not survive a step. -/
structure State where
  /-- `PC`, the program counter (R32). -/
  pc : Byte
  /-- `AC`, the accumulator (R31). -/
  ac : Byte
  /-- `N`, the negative flag (R37). -/
  n : Bool
  /-- `Z`, the zero flag (R38). -/
  z : Bool
  /-- `RUN`, the run state (R42). -/
  run : RunState
  /-- `FAULT`, the fault status (R43). -/
  fault : FaultStatus
  /-- `MEM`, the memory (R46). -/
  mem : Memory
  deriving DecidableEq, Repr

/-- A step that stops with a fault. The type is empty: the one exception of the machine, DecodeFault (R220), is TAKEN,
that is, recorded in the next state (R222), and no access or operation can fail (R64, R67, R150). Safe: no step
answers a fault (log entry 2). -/
inductive Fault where
  deriving DecidableEq, Repr

/-- A step the model gives no meaning. -/
inductive Refusal where
  /-- An instruction that has no meaning yet, by its mnemonic. Raised by no arm of `exec`: all eleven instructions
  have their meaning. Safe. -/
  | notModelled (mnemonic : String)
  deriving DecidableEq, Repr

/-- Reset (R250) under the parameters `c`: every register, the power-on memory, nothing recorded, nothing running. -/
def State.resetWith (c : Config) : State where
  pc := 0
  ac := 0
  n := c.resetN
  z := c.resetZ
  run := .halted
  fault := .none
  mem := []

/-- The machine right after reset, with the values R250 states. `N` and `Z` are the spec's decision D4 (log entry 3). -/
def State.reset : State := State.resetWith Config.decided

end Sys2Proof.Machine
end

