-- ==== Sys2Proof/Machine/Ops.lean ====
section
/-! DEFINITION. The named operations over memory and registers: the memory primitives (R14, R61, R62), the increment
(R12, R34), taking DecodeFault (R15, R222) and, beside it, the one way back from it (R224, R230, R253). -/

namespace Sys2Proof.Machine

/-! ## Memory -/

/-- What an unlisted address reads as: the power-on content of R70. -/
def Memory.powerOn (a : Nat) : Byte :=
  if a = 128 then 4 else if a = 129 then 8 else if a = 130 then 2 else 0

/-- The byte at the address `a`: the listed one, or else the power-on content. -/
def Memory.lookup : Memory → Nat → Byte
  | [], a => Memory.powerOn a
  | c :: rest, a => if c.1 = a then c.2 else Memory.lookup rest a

/-- The memory without an entry for `a`: there `a` reads as its power-on content. -/
def Memory.without (m : Memory) (a : Nat) : Memory := m.filter fun c => c.1 ≠ a

/-- The entry `(a, v)` in its place by rising address. -/
def Memory.place : Memory → Nat → Byte → Memory
  | [], a, v => [(a, v)]
  | c :: rest, a, v => if c.1 < a then c :: Memory.place rest a v else (a, v) :: c :: rest

/-- `v` at `a`: no entry where `v` is what an unlisted `a` reads as, so that equal memories are equal lists. -/
def Memory.put (m : Memory) (a : Nat) (v : Byte) : Memory :=
  if v = Memory.powerOn a then m.without a else Memory.place (m.without a) a v

/-- `MemRead(a, 1)` (R14, R61). Every 8-bit address names a cell, so it cannot fail (R64). -/
def Memory.read (m : Memory) (a : Byte) : Byte := Memory.lookup m a.toNat

/-- `MemWrite(a, 1, v)` (R14, R62). -/
def Memory.write (m : Memory) (a v : Byte) : Memory := Memory.put m a.toNat v

/-- Addresses rise strictly from `lo` on, name cells 0..255 (R60), and no entry repeats the power-on content. -/
def Memory.wfFrom : Nat → Memory → Bool
  | _, [] => true
  | lo, c :: rest =>
    decide (lo ≤ c.1) && decide (c.1 < 256) && decide (c.2 ≠ Memory.powerOn c.1) && Memory.wfFrom (c.1 + 1) rest

/-- The canonical form of a memory. -/
def Memory.wf (m : Memory) : Bool := Memory.wfFrom 0 m

/-- Every address, 0 to 255, in order. -/
def Memory.addresses : List Byte := (List.range 256).map (BitVec.ofNat 8)

/-- The 256 cells in address order. -/
def Memory.cells (m : Memory) : List Byte := Memory.addresses.map m.read

/-- Every cell set to `v`. -/
def Memory.fill (m : Memory) (v : Byte) : Memory := Memory.addresses.foldl (fun m a => m.write a v) m

/-- The preset cells of R70, written. -/
def Memory.writePresets (m : Memory) : Memory := ((m.write 128 4).write 129 8).write 130 2

/-! ## Registers -/

/-- `PC <- v` (R13). -/
def State.setPc (s : State) (v : Byte) : State := { s with pc := v }

/-- `RUN <- r` (R42). -/
def State.setRun (s : State) (r : RunState) : State := { s with run := r }

/-- `MemRead(a, 1)` on the machine's memory (R61). -/
def State.memRead (s : State) (a : Byte) : Byte := s.mem.read a

/-- `MemWrite(a, 1, v)` on the machine's memory (R62). -/
def State.memWrite (s : State) (a v : Byte) : State := { s with mem := s.mem.write a v }

/-- `inc8(v)` (R12): the increment mod 256, and the carry, true exactly when `v` is 255. -/
def inc8 (v : Byte) : Byte × Bool := (v + 1, v == 255)

/-! ## The exception -/

/-- `raise DecodeFault(addr, byte)` (R15, R222): FAULT and RUN, and nothing else. No state is saved elsewhere, no mode
changes and control goes nowhere (R229). Leaving PC at the faulting address is the spec's decision D7 (log entry 9). -/
def State.raiseDecodeFault (s : State) (addr byte : Byte) : State :=
  { s with fault := .decodeFault addr byte, run := .halted }

/-- Clear registers (R253), the host's way back from a fault besides reset (R224); no instruction returns from one
(R230). Memory is untouched. Its effect is the spec's decision D15 (log entry 8). -/
def State.clearRegisters (c : Config) (s : State) : State :=
  { State.resetWith c with mem := s.mem }

/-! ## Outcomes -/

/-- Applies `f` to the next state; a fault or a refusal stays. -/
def mapNext (f : State → State) : Host.Outcome State Fault Refusal → Host.Outcome State Fault Refusal
  | .next s => .next (f s)
  | .fault r => .fault r
  | .refused r => .refused r

end Sys2Proof.Machine
end

