-- ==== Sys2Proof/Machine/Flags.lean ====
section
/-! DEFINITION. The ALU (R150) and the flag unit (R37, R38, R151). There are no other flags (R40). -/

namespace Sys2Proof.Machine

/-- The ALU (R150): `a` is AC and `b` the byte from memory. The carry out of ADD is discarded. -/
def alu (op : AluOp) (a b : Byte) : Byte :=
  match op with
  | .pass => b
  | .add => a + b
  | .or => a ||| b
  | .and => a &&& b
  | .not => ~~~a

/-- N for the result `r`: bit 7 (R37). -/
def negativeFlag (r : Byte) : Bool := r.getLsbD 7

/-- Z for the result `r` (R38). -/
def zeroFlag (r : Byte) : Bool := r == 0

/-- The flag unit (R151): AC, N and Z are written together from the one result. -/
def State.writeResult (s : State) (r : Byte) : State :=
  { s with ac := r, n := negativeFlag r, z := zeroFlag r }

end Sys2Proof.Machine
end

