-- ==== Sys2Proof/Machine/Operands.lean ====
section
/-! DEFINITION. The one operand form of the machine, memory-direct (R94): the operand byte is an absolute 8-bit address
used as it is, of a data cell or as a jump target. -/

namespace Sys2Proof.Machine

/-- The address of the data cell, for STA, LDA, ADD, OR and AND (R94): not extended, scaled or indexed. -/
def dataAddress (opr : Byte) : Byte := opr

/-- The byte of the data cell, for LDA, ADD, OR and AND (R63). -/
def dataByte (s : State) (opr : Byte) : Byte := s.memRead (dataAddress opr)

/-- The target of JMP, JN and JZ (R94, R203). -/
def jumpTarget (opr : Byte) : Byte := opr

end Sys2Proof.Machine
end

