-- ==== Sys2Proof/Machine/Alu.lean ====
section
/-! DEFINITION. ADD, OR, AND and NOT: the execute part (`42_alu.md`). -/

namespace Sys2Proof.Machine

/-- ADD (R180): AC plus the data cell, mod 256; no carry and no overflow is kept (R152). -/
def execAdd (addr : Byte) (s : State) : Host.Outcome State Fault Refusal :=
  .next (s.writeResult (alu .add s.ac (dataByte s addr)))

/-- OR (R181). Its memory operand is the spec's decision D10 (log entry 10). -/
def execOr (addr : Byte) (s : State) : Host.Outcome State Fault Refusal :=
  .next (s.writeResult (alu .or s.ac (dataByte s addr)))

/-- AND (R182). Its memory operand is the spec's decision D10 (log entry 10). -/
def execAnd (addr : Byte) (s : State) : Host.Outcome State Fault Refusal :=
  .next (s.writeResult (alu .and s.ac (dataByte s addr)))

/-- NOT (R183): the complement of AC. It reads no data cell, so the ALU's second input is not used (R150). -/
def execNot (s : State) : Host.Outcome State Fault Refusal :=
  .next (s.writeResult (alu .not s.ac 0))

end Sys2Proof.Machine
end

