-- ==== Sys2Proof/Machine/Control.lean ====
section
/-! DEFINITION. JMP, JN and JZ: the execute part (`43_control.md`). PC already points past the instruction, so a jump
that is not taken leaves it (R35, R146). -/

namespace Sys2Proof.Machine

/-- JMP (R200). -/
def execJmp (addr : Byte) (s : State) : Host.Outcome State Fault Refusal :=
  .next (s.setPc (jumpTarget addr))

/-- JN (R201). -/
def execJn (addr : Byte) (s : State) : Host.Outcome State Fault Refusal :=
  .next (if s.n then s.setPc (jumpTarget addr) else s)

/-- JZ (R202). -/
def execJz (addr : Byte) (s : State) : Host.Outcome State Fault Refusal :=
  .next (if s.z then s.setPc (jumpTarget addr) else s)

end Sys2Proof.Machine
end

