-- ==== Sys2Proof/Machine/LoadStore.lean ====
section
/-! DEFINITION. STA and LDA: the execute part (`41_load_store.md`). The operand is fetched and PC advanced before it,
and the wrap halt comes after it (`Machine/Engine.lean`). -/

namespace Sys2Proof.Machine

/-- STA (R170): AC to the data cell; AC, N and Z are unchanged. -/
def execSta (addr : Byte) (s : State) : Host.Outcome State Fault Refusal :=
  .next (s.memWrite (dataAddress addr) s.ac)

/-- LDA (R171): the data cell to AC, and the flags from it. -/
def execLda (addr : Byte) (s : State) : Host.Outcome State Fault Refusal :=
  .next (s.writeResult (alu .pass s.ac (dataByte s addr)))

end Sys2Proof.Machine
end

