-- ==== Sys2Proof/Machine/System.lean ====
section
/-! DEFINITION. NOP and HLT (`44_system.md`). -/

namespace Sys2Proof.Machine

/-- NOP (R210): skip. -/
def execNop (s : State) : Host.Outcome State Fault Refusal := .next s

/-- HLT (R211): the execute part is skip, and RUN becomes Halted by the end-of-step rule (R148), which no other event
of the step can undo. PC stays past the HLT. -/
def execHlt (s : State) : Host.Outcome State Fault Refusal := .next (s.setRun .halted)

end Sys2Proof.Machine
end

