-- ==== Sys2Proof/Machine/Engine.lean ====
section
/-! DEFINITION. The fetch-decode-execute sequencer (`40_execution_engine.md`): what a step does around the execute part
of an instruction, the step's result (R140), and its memory accesses (R63, R156). `Machine/Step.lean` joins it to
`exec`. -/

namespace Sys2Proof.Machine

/-! ## Start and fetch -/

/-- Start of a step with no fault recorded (R142): RUN becomes Running, whatever it was. So a step on a Halted machine
runs the instruction at PC (decision D9, log entry 9). -/
def startStep (s : State) : State := s.setRun .running

/-- The bytes the fetch reads, at the time it reads them (R76): the opcode byte at PC (R143), and the operand byte at
PC + 1 mod 256 if the entry has an operand (R145). -/
def fetchBytes (s : State) : List Byte :=
  let ir := s.memRead s.pc
  match lookupByOpcode ir with
  | none => [ir]
  | some e => if e.operandCount = 0 then [ir] else [ir, s.memRead (inc8 s.pc).1]

/-- `k` increments of PC (R145, R146), and the latch WRAP (R48): did any of them carry out of 255? -/
def advancePc : Nat → State → State × Bool
  | 0, s => (s, false)
  | k + 1, s =>
    let (v, c) := inc8 s.pc
    let (s', c') := advancePc k (s.setPc v)
    (s', c || c')

/-- What the front half of a step leaves (R143 to R146): the latches of R48 that the rest of the step reads. -/
inductive FrontEnd where
  /-- `entry.valid` is false (R144): the latch IR. PC has not moved and no operand was read. -/
  | illegal (ir : Byte)
  /-- The instruction (IR decoded, with OPR), the latch WRAP, and the state with PC past the whole instruction. -/
  | ready (i : Instr) (wrap : Bool) (s : State)
  deriving DecidableEq, Repr

/-- Fetch, decode, operand fetch and PC advance (R143 to R146). -/
def frontEnd (s : State) : FrontEnd :=
  match decode (fetchBytes s) with
  | .error _ => .illegal (s.memRead s.pc)
  | .ok i _ =>
    let (s', wrap) := advancePc (instrLength i) s
    .ready i wrap s'

/-! ## End of the step -/

/-- The wrap halt (R148): any carry out of a PC increment of the step halts the engine after the instruction has
executed, whatever PC is by then (decision D6, log entry 4). HLT halts in its own meaning. -/
def endStep (wrap : Bool) (s : State) : State := if wrap then s.setRun .halted else s

/-- One step (R149), given the execute part `ex` of the instructions. -/
def stepWith (ex : Instr → State → Host.Outcome State Fault Refusal) (s : State) :
    Host.Outcome State Fault Refusal :=
  match s.fault with
  | .decodeFault _ _ => .next s
  | .none =>
    match frontEnd (startStep s) with
    | .illegal ir => .next ((startStep s).raiseDecodeFault s.pc ir)
    | .ready i wrap s' => mapNext (endStep wrap) (ex i s')

/-! ## The step's result -/

/-- The step result of R140 (decision D25). It is a report to the host and no state (log entry 1). -/
inductive StepResult where
  /-- `Continue`. -/
  | continues
  /-- `Halted(Hlt)`. -/
  | haltedHlt
  /-- `Halted(Wrap)`. -/
  | haltedWrap
  /-- `DecodeFault(addr, opcode)`. -/
  | decodeFault (addr opcode : Byte)
  deriving DecidableEq, Repr

/-- The result of the step taken from `s` (R141, R144, R148, R149). Where HLT and a wrap meet, HLT is reported (R157). -/
def stepResult (s : State) : StepResult :=
  match s.fault with
  | .decodeFault addr opcode => .decodeFault addr opcode
  | .none =>
    match frontEnd (startStep s) with
    | .illegal ir => .decodeFault s.pc ir
    | .ready i wrap _ => if i = .hlt then .haltedHlt else if wrap then .haltedWrap else .continues

/-! ## The step's memory accesses -/

/-- One access at the memory port (R63). -/
inductive Access where
  | read (a : Byte)
  | write (a v : Byte)
  deriving DecidableEq, Repr

/-- The data access of the execute part (R63): none, one read, or STA's write. -/
def dataAccesses (i : Instr) (s : State) : List Access :=
  match i with
  | .nop => []
  | .sta a => [.write (dataAddress a) s.ac]
  | .lda a => [.read (dataAddress a)]
  | .add a => [.read (dataAddress a)]
  | .or a => [.read (dataAddress a)]
  | .and a => [.read (dataAddress a)]
  | .not => []
  | .jmp _ => []
  | .jn _ => []
  | .jz _ => []
  | .hlt => []

/-- The accesses of the step taken from `s`, in order (R73, R156): opcode read, operand read, data access. -/
def stepAccesses (s : State) : List Access :=
  match s.fault with
  | .decodeFault _ _ => []
  | .none =>
    match frontEnd (startStep s) with
    | .illegal _ => [.read s.pc]
    | .ready i _ s' =>
      .read s.pc :: ((operandOf i).toList.map fun _ => .read (inc8 s.pc).1) ++ dataAccesses i s'

/-- What one access does to memory (R61, R62). -/
def Access.apply (m : Memory) : Access → Memory
  | .read _ => m
  | .write a v => m.write a v

/-! ## Placing an instruction -/

/-- Stores the two bytes of `w` (byte 0 in bits 7..0) at PC and PC + 1 mod 256, and clears a recorded fault, without
which no step fetches (R141). The rest of the state stays. -/
def placeWord (s : State) (w : Nat) : State :=
  { s with
    fault := .none
    mem := (s.mem.write s.pc (BitVec.ofNat 8 w)).write (inc8 s.pc).1 (BitVec.ofNat 8 (w / 256)) }

end Sys2Proof.Machine
end

