-- ==== Sys2Proof/Machine/Step.lean ====
section
/-! DEFINITION. The step (R149), and the host's way to place one instruction where the next step fetches it. -/

namespace Sys2Proof.Machine

/-- One step: the sequencer of `Machine/Engine.lean` around the meanings of `exec`. -/
def step (s : State) : Host.Outcome State Fault Refusal := stepWith exec s

/-- `s` with the instruction whose bits are `w` at PC (bits at `nbits` and above read as 0). It stands for the host's
load of a program (R267; log entry 6). -/
def State.withFetchWord (s : State) (nbits w : Nat) : State := placeWord s (w % 2 ^ nbits)

end Sys2Proof.Machine
end

