-- ==== Sys2Proof/Machine/Datapath.lean ====
section
/-! DEFINITION. The datapath as the decode ROM's control columns drive it (R95, R150, R151): a second description of
the execute part, which no meaning uses. A statement says the two agree. -/

namespace Sys2Proof.Machine

/-- The memory column: STA's write (R95). -/
def memoryColumn (d : DataAccess) (opr : Byte) (s : State) : State :=
  match d with
  | .none => s
  | .readOperand => s
  | .writeAc => s.memWrite opr s.ac

/-- The ALU and flag-write columns: with flag write set, the ALU's result goes to AC, N and Z together (R151). -/
def aluColumn (op : Option AluOp) (writesFlags : Bool) (b : Byte) (s : State) : State :=
  match op with
  | none => s
  | some o => if writesFlags then s.writeResult (alu o s.ac b) else s

/-- The PC column (R95, R151 does not touch it). -/
def pcColumn (p : PcAction) (opr : Byte) (s : State) : State :=
  match p with
  | .none => s
  | .jump => s.setPc opr
  | .jumpIfN => if s.n then s.setPc opr else s
  | .jumpIfZ => if s.z then s.setPc opr else s

/-- The execute part that an entry's control signals give, for the operand latch `opr`. -/
def datapath (e : RomEntry) (opr : Byte) (s : State) : State :=
  let s := memoryColumn e.dataAccess opr s
  let s := aluColumn e.aluOp e.writesFlags (s.memRead opr) s
  let s := pcColumn e.pcAction opr s
  if e.halts then s.setRun .halted else s

end Sys2Proof.Machine
end

