-- ==== Sys2Proof/Machine/Assembler.lean ====
section
/-! DEFINITION. The assembler's contract (R110 to R126): source text to a success flag, diagnostics and a 256-cell
image. Text is a list of characters. The image is a `Memory`, which starts as the power-on content (R125). -/

namespace Sys2Proof.Machine

/-- A token of a preprocessed line. -/
abbrev Token := List Char

/-! ## Preprocessing (R110) -/

/-- The lines of a text. -/
def splitLines : List Char → List (List Char)
  | [] => [[]]
  | c :: cs =>
    if c = '\n' then [] :: splitLines cs
    else
      match splitLines cs with
      | [] => [[c]]
      | l :: ls => (c :: l) :: ls

/-- The tokens of a line, split at runs of whitespace; `cur` holds the token being read, reversed. -/
def splitTokens : List Char → Token → List Token
  | [], cur => if cur = [] then [] else [cur.reverse]
  | c :: cs, cur =>
    if c.isWhitespace then
      if cur = [] then splitTokens cs [] else cur.reverse :: splitTokens cs []
    else splitTokens cs (c :: cur)

/-- One line without its comment, in lower case, as its tokens. -/
def lineTokens (l : List Char) : List Token :=
  splitTokens ((l.takeWhile (· ≠ ';')).map lowerChar) []

/-- The lines that are not blank, as tokens (R110). -/
def preprocess (source : List Char) : List (List Token) :=
  ((splitLines source).map lineTokens).filter (· ≠ [])

/-! ## Literals (R113, R119) -/

/-- A decimal unsigned literal; nothing else is a number (D20). -/
def parseDecimal (t : Token) : Option Nat :=
  if t ≠ [] ∧ t.all Char.isDigit = true then some (t.foldl (fun n c => n * 10 + (c.toNat - 48)) 0) else none

/-- A literal in the range 0..`bound` (R113). -/
def literal (bound : Nat) (t : Token) : Option Nat :=
  match parseDecimal t with
  | none => none
  | some v => if v ≤ bound then some v else none

/-- The argument `N(V)` of `dab` and `daw` (R119): digits, `(`, a value, `)`. -/
def parseRepeat (t : Token) : Option (Nat × Token) :=
  match t.dropWhile (· ≠ '(') with
  | [] => none
  | _ :: rest =>
    if rest.getLast? = some ')' ∧ rest.dropLast ≠ [] then
      (parseDecimal (t.takeWhile (· ≠ '('))).map fun n => (n, rest.dropLast)
    else none

/-- The one argument of `dab` and `daw`; any other number of arguments matches no `N(V)` (AS9). -/
def repeatArgument : List Token → Option (Nat × Token)
  | [t] => parseRepeat t
  | _ => none

/-- `n` in decimal, with `fuel` digits at most, before `acc`. -/
def decimalDigits : Nat → Nat → List Char → List Char
  | 0, _, acc => acc
  | fuel + 1, n, acc =>
    let acc := Char.ofNat (48 + n % 10) :: acc
    if n < 10 then acc else decimalDigits fuel (n / 10) acc

/-- `n` in decimal, as label substitution writes it (R122). -/
def decimal (n : Nat) : Token := decimalDigits (n + 1) n []

/-! ## Lines (R111, R114) -/

/-- A line without its label (R111). -/
inductive Body where
  | empty
  | org (args : List Token)
  | db (args : List Token)
  | dw (args : List Token)
  | dab (args : List Token)
  | daw (args : List Token)
  | instr (name : Token) (args : List Token)
  deriving DecidableEq, Repr

/-- Which directive a token names, if any (R111). -/
def directive (t : Token) : Option (List Token → Body) :=
  if t = ['o', 'r', 'g'] then some .org
  else if t = ['d', 'b'] then some .db
  else if t = ['d', 'w'] then some .dw
  else if t = ['d', 'a', 'b'] then some .dab
  else if t = ['d', 'a', 'w'] then some .daw
  else none

/-- The kind of a line without its label (R111). -/
def classify : List Token → Body
  | [] => .empty
  | t :: args =>
    match directive t with
    | some d => d args
    | none => .instr t args

/-- A line: its label, if its first token ends in `:`, and the rest (R114, D21). -/
structure SourceLine where
  label : Option Token
  body : Body
  deriving DecidableEq, Repr

/-- R111, R114. -/
def parseLine : List Token → SourceLine
  | [] => ⟨none, .empty⟩
  | t :: ts =>
    if t.getLast? = some ':' then ⟨some t.dropLast, classify ts⟩ else ⟨none, classify (t :: ts)⟩

/-! ## Diagnostics (R124) -/

/-- The diagnostics of R124. -/
inductive Diagnostic where
  | unknownMnemonic (name : Token)
  | malformedDirective (args : List Token)
  /-- An out-of-range or non-numeric value (R113). -/
  | badValue (t : Token)
  | operandCount (name : Token)
  | duplicateLabel (name : Token)
  /-- A label name that R115 forbids. R124 lists no kind for it: DESIGN CHOICE, log entry 12. -/
  | labelName (name : Token)
  /-- A byte that would land at 256 or above (R123), one for each such byte (log entry 16). -/
  | emitPastEnd (cursor : Nat)
  deriving DecidableEq, Repr

/-- R115: a label name is no mnemonic, no directive name and not numeric; nor is it empty (log entry 12). -/
def labelForbidden (name : Token) : Bool :=
  (lookupByMnemonic name).isSome || (directive name).isSome || (parseDecimal name).isSome || name == []

/-! ## Pass 1 (R121) -/

/-- The state of pass 1. -/
structure Pass1 where
  cursor : Nat
  labels : List (Token × Nat)
  diagnostics : List Diagnostic
  deriving DecidableEq, Repr

/-- One more diagnostic. -/
def Pass1.report (p : Pass1) (d : Diagnostic) : Pass1 := { p with diagnostics := p.diagnostics ++ [d] }

/-- The cursor moved on by `k`. -/
def Pass1.skip (p : Pass1) (k : Nat) : Pass1 := { p with cursor := p.cursor + k }

/-- A label is bound to the cursor (R114); a label defined twice keeps its first address and is a diagnostic (R115,
log entry 12). -/
def bindLabel (p : Pass1) (label : Option Token) : Pass1 :=
  match label with
  | none => p
  | some name =>
    if labelForbidden name then p.report (.labelName name)
    else if (p.labels.lookup name).isSome then p.report (.duplicateLabel name)
    else { p with labels := p.labels ++ [(name, p.cursor)] }

/-- The size of a line (R121). An `org` whose argument is no literal in range is reported and keeps the cursor (R116; log
entries 14 and 26). -/
def sizeBody (p : Pass1) (b : Body) : Pass1 :=
  match b with
  | .empty => p
  | .org args =>
    match args with
    | [a] =>
      match literal 255 a with
      | some v => { p with cursor := v }
      | none => p.report (.badValue a)
    | _ => p.report (.operandCount ['o', 'r', 'g'])
  | .db _ => p.skip 1
  | .dw _ => p.skip 2
  | .dab args =>
    match repeatArgument args with
    | some (n, _) => p.skip n
    | none => p.report (.malformedDirective args)
  | .daw args =>
    match repeatArgument args with
    | some (n, _) => p.skip (2 * n)
    | none => p.report (.malformedDirective args)
  | .instr name _ =>
    match lookupByMnemonic name with
    | some e => p.skip (1 + e.operandCount)
    | none => p.report (.unknownMnemonic name)

/-- Pass 1 over one line: the label, then the size. -/
def pass1Line (p : Pass1) (l : SourceLine) : Pass1 := sizeBody (bindLabel p l.label) l.body

/-! ## Symbol substitution (R122) -/

/-- A whole token that is a label becomes its address in decimal; part of a token never does. -/
def substToken (labels : List (Token × Nat)) (t : Token) : Token :=
  match labels.lookup t with
  | some a => decimal a
  | none => t

/-- The argument `N(V)`, whose value `V` may be a label (R119; log entry 15). An argument of this form is read as `N(V)`
also where the whole token is a label, a label named `3(7)` say: the whole token is then not replaced. DESIGN CHOICE,
log entry 27. -/
def substRepeat (labels : List (Token × Nat)) (t : Token) : Token :=
  match parseRepeat t with
  | some (_, v) => t.takeWhile (· ≠ '(') ++ ['('] ++ substToken labels v ++ [')']
  | none => substToken labels t

/-- Substitution in the arguments of a line, those of `org` among them (R122; log entry 26). The first token needs none:
no label is a mnemonic or a directive name. -/
def substBody (labels : List (Token × Nat)) : Body → Body
  | .empty => .empty
  | .org args => .org (args.map (substToken labels))
  | .db args => .db (args.map (substToken labels))
  | .dw args => .dw (args.map (substToken labels))
  | .dab args => .dab (args.map (substRepeat labels))
  | .daw args => .daw (args.map (substRepeat labels))
  | .instr name args => .instr name (args.map (substToken labels))

/-! ## Pass 2 (R123) -/

/-- The state of pass 2: the staging image among it. -/
structure Pass2 where
  cursor : Nat
  image : Memory
  diagnostics : List Diagnostic
  deriving DecidableEq, Repr

/-- One more diagnostic, and the cursor moved past the line it is about. -/
def Pass2.report (p : Pass2) (d : Diagnostic) (size : Nat) : Pass2 :=
  { p with cursor := p.cursor + size, diagnostics := p.diagnostics ++ [d] }

/-- One byte at the cursor; at 256 or above nothing is written (R123). -/
def emitByte (p : Pass2) (v : Byte) : Pass2 :=
  if p.cursor < 256 then
    { p with cursor := p.cursor + 1, image := p.image.write (BitVec.ofNat 8 p.cursor) v }
  else p.report (.emitPastEnd p.cursor) 1

/-- A 16-bit value, high byte first (R118). -/
def emitWord (p : Pass2) (v : Nat) : Pass2 :=
  emitByte (emitByte p (BitVec.ofNat 8 (v / 256))) (BitVec.ofNat 8 v)

/-- `f` applied `n` times (R119, R120). -/
def repeatEmit (f : Pass2 → Pass2) : Nat → Pass2 → Pass2
  | 0, p => p
  | n + 1, p => repeatEmit f n (f p)

/-- A directive with one value of at most `bound` and `size` bytes (R117, R118). A wrong count is reported alone, without
the faults of the values. DESIGN CHOICE, log entry 28. -/
def emitValue (p : Pass2) (name : Token) (bound size : Nat) (f : Pass2 → Nat → Pass2) (args : List Token) : Pass2 :=
  match args with
  | [a] =>
    match literal bound a with
    | some v => f p v
    | none => p.report (.badValue a) size
  | _ => p.report (.operandCount name) size

/-- `dab` and `daw` (R119, R120); a malformed argument was reported by pass 1 and has size 0. -/
def emitRepeat (p : Pass2) (bound size : Nat) (f : Pass2 → Nat → Pass2) (args : List Token) : Pass2 :=
  match repeatArgument args with
  | none => p
  | some (n, t) =>
    match literal bound t with
    | some v => repeatEmit (fun q => f q v) n p
    | none => p.report (.badValue t) (size * n)

/-- An instruction line (R112, R123): its opcode byte, then its operand value as one byte. An unknown mnemonic was
reported by pass 1 and has size 0. The first fault of a line is reported alone: the operands of an unknown mnemonic or
of a wrong count are not checked (`hlt 300`, `foo 300`). DESIGN CHOICE, log entry 28. -/
def emitInstr (p : Pass2) (name : Token) (args : List Token) : Pass2 :=
  match lookupByMnemonic name with
  | none => p
  | some e =>
    if e.operandCount = 0 then
      match args with
      | [] => emitByte p e.opcodeByte
      | _ => p.report (.operandCount name) 1
    else
      match args with
      | [a] =>
        match literal 255 a with
        | some v => emitByte (emitByte p e.opcodeByte) (BitVec.ofNat 8 v)
        | none => p.report (.badValue a) 2
      | _ => p.report (.operandCount name) 2

/-- Pass 2 over one substituted line; its label is skipped (R123). An `org` with a label was reported by pass 1, which
kept its cursor; here the label stands replaced (R122), so its address, where it is at most 255, is the new cursor, and
the two passes differ. DESIGN CHOICE, log entry 26. -/
def pass2Line (p : Pass2) (b : Body) : Pass2 :=
  match b with
  | .empty => p
  | .org args =>
    match args with
    | [a] =>
      match literal 255 a with
      | some v => { p with cursor := v }
      | none => p
    | _ => p
  | .db args => emitValue p ['d', 'b'] 255 1 (fun q v => emitByte q (BitVec.ofNat 8 v)) args
  | .dw args => emitValue p ['d', 'w'] 65535 2 emitWord args
  | .dab args => emitRepeat p 255 1 (fun q v => emitByte q (BitVec.ofNat 8 v)) args
  | .daw args => emitRepeat p 65535 2 emitWord args
  | .instr name args => emitInstr p name args

/-! ## The whole assembly (R125) -/

/-- What an assembly returns (R125). -/
structure AssemblyResult where
  success : Bool
  diagnostics : List Diagnostic
  image : Memory
  deriving DecidableEq, Repr

/-- Both passes over parsed lines. Any diagnostic makes the assembly fail (R124). -/
def assembleLines (lines : List SourceLine) : AssemblyResult :=
  let p1 := lines.foldl pass1Line ⟨0, [], []⟩
  let p2 := lines.foldl (fun p l => pass2Line p (substBody p1.labels l.body)) ⟨0, [], []⟩
  let diagnostics := p1.diagnostics ++ p2.diagnostics
  ⟨diagnostics.isEmpty, diagnostics, p2.image⟩

/-- The assembler: a function of the source text alone (V7). -/
def assemble (source : List Char) : AssemblyResult := assembleLines ((preprocess source).map parseLine)

/-- CommitAssembly (R258, R259): on success the image replaces all of memory, and on failure nothing changes. -/
def commitAssembly (source : List Char) (s : State) : State × AssemblyResult :=
  let r := assemble source
  (if r.success then { s with mem := r.image } else s, r)

end Sys2Proof.Machine
end

