-- ==== Sys2Proof/Machine/Image.lean ====
section
/-! DEFINITION. The image file (R261 to R266): 4 bytes of magic, then a value byte and a padding byte for each cell.
What the file system does is the host's and enters as data (log entry 18). -/

namespace Sys2Proof.Machine

/-- The magic `0x03 'N' 'D' 'R'` (R263). -/
def imageMagic : List Byte := [0x03, 0x4E, 0x44, 0x52]

/-- The bytes of a saved image (R261, R262): magic, then each cell followed by the padding byte 0. -/
def imageBytes (m : Memory) : List Byte := imageMagic ++ m.cells.flatMap fun v => [v, 0]

/-- The values of the value/padding pairs (R264): every padding byte is discarded unread, and a last value byte without
its padding byte counts (R265). -/
def pairValues : List Byte → List Byte
  | [] => []
  | [v] => [v]
  | v :: _ :: rest => v :: pairValues rest

/-- `vs` into the cells from `a` on, in order; values beyond cell 255 are ignored (R264, R265). -/
def writeCells : Nat → List Byte → Memory → Memory
  | _, [], m => m
  | a, v :: vs, m => if a < 256 then writeCells (a + 1) vs (m.write (BitVec.ofNat 8 a) v) else m

/-- The memory after loading a file's bytes over `m` (R264), or none where the first four bytes are not the magic or
the file has fewer than four (R265). -/
def loadImageBytes (file : List Byte) (m : Memory) : Option Memory :=
  if file.take 4 = imageMagic then some (writeCells 0 (pairValues (file.drop 4)) m) else none

/-- What the host's read of the file gave. -/
inductive FileRead where
  | bytes (content : List Byte)
  /-- The open or the read failed (R266). -/
  | failed
  deriving DecidableEq, Repr

/-- What a load reports. -/
inductive LoadReport where
  | loaded
  | fileFormatMismatch
  | ioFailure
  deriving DecidableEq, Repr

/-- LoadImage (R264, R266): only memory can change, and only on a load that succeeds. -/
def loadImage (file : FileRead) (s : State) : State × LoadReport :=
  match file with
  | .failed => (s, .ioFailure)
  | .bytes content =>
    match loadImageBytes content s.mem with
    | none => (s, .fileFormatMismatch)
    | some m => ({ s with mem := m }, .loaded)

/-- What a save reports: the bytes the file holds after it (any existing file is overwritten, R261), or a failure. -/
inductive SaveReport where
  | saved (content : List Byte)
  | ioFailure
  deriving DecidableEq, Repr

/-- SaveImage (R261, R266). It changes no machine state, so it answers its report alone; `writable` says whether the
host could open and write the file. -/
def saveImage (writable : Bool) (s : State) : SaveReport :=
  if writable then .saved (imageBytes s.mem) else .ioFailure

end Sys2Proof.Machine
end

