-- ==== Sys2Proof/Machine/Run.lean ====
section
/-! DEFINITION. Run (R153, R154): steps until one answers something other than Continue. Nothing bounds a run: a run
that never halts is `RunsForever` (R284). -/

namespace Sys2Proof.Machine

/-- `Runs s t r`: Run from `s` returns the state `t` and the result `r` (R153). -/
inductive Runs : State → State → StepResult → Prop where
  | stop {s t : State} (hstep : step s = .next t) (hr : stepResult s ≠ .continues) : Runs s t (stepResult s)
  | more {s u t : State} {r : StepResult} (hstep : step s = .next u) (hr : stepResult s = .continues)
      (hrest : Runs u t r) : Runs s t r

/-- The first `k` steps from `s` all answer Continue. -/
def continuesFor : Nat → State → Prop
  | 0, _ => True
  | k + 1, s => stepResult s = .continues ∧ ∃ t, step s = .next t ∧ continuesFor k t

/-- Run from `s` does not return (R154). -/
def RunsForever (s : State) : Prop := ∀ k, continuesFor k s

/-- Run cut off after `k` steps: `none` says that it has not returned within them, and never that it halted. -/
def runWithin : Nat → State → Option (State × StepResult)
  | 0, _ => none
  | k + 1, s =>
    match step s with
    | .next t => if stepResult s = .continues then runWithin k t else some (t, stepResult s)
    | .fault _ => none
    | .refused _ => none

end Sys2Proof.Machine
end

