-- ==== Sys2Proof/Machine/HostPort.lean ====
section
/-! DEFINITION. The host's transactions (R255 to R259) and what it reads (R45, R257). They happen only between steps,
one at a time (R256). -/

namespace Sys2Proof.Machine

/-! ## Clear memory -/

/-- ClearMemory (R254): every cell to 0, and the presets only where the parameter says so (D14, log entry 8). -/
def State.clearMemory (c : Config) (s : State) : State :=
  let m := s.mem.fill 0
  { s with mem := if c.clearMemoryRestoresPresets then m.writePresets else m }

/-! ## Reading -/

/-- The host-visible status word of R45 (its packing is the spec's decision D7). -/
structure StatusWord where
  running : BitVec 1
  faultCode : BitVec 2
  faultAddr : BitVec 8
  faultOpcode : BitVec 8
  deriving DecidableEq, Repr

/-- RUN and FAULT as the status word (R45). -/
def statusWord (c : Config) (s : State) : StatusWord where
  running := match s.run with
    | .halted => 0
    | .running => 1
  faultCode := match s.fault with
    | .none => 0
    | .decodeFault _ _ => c.faultCodeDecode
  faultAddr := match s.fault with
    | .none => 0
    | .decodeFault a _ => a
  faultOpcode := match s.fault with
    | .none => 0
    | .decodeFault _ o => o

/-- The named read accessors (R257); there is no access by index (I8) and no write accessor (D16). -/
inductive ReadRequest where
  | pc | ac | n | z
  | mem (a : Byte)
  | run | fault | status
  deriving DecidableEq, Repr

/-- What a read accessor returns. -/
inductive ReadValue where
  | byte (v : Byte)
  | flag (b : Bool)
  | runState (r : RunState)
  | faultStatus (f : FaultStatus)
  | statusWord (w : StatusWord)
  deriving DecidableEq, Repr

/-- Read (R257). -/
def readState (c : Config) (q : ReadRequest) (s : State) : ReadValue :=
  match q with
  | .pc => .byte s.pc
  | .ac => .byte s.ac
  | .n => .flag s.n
  | .z => .flag s.z
  | .mem a => .byte (s.memRead a)
  | .run => .runState s.run
  | .fault => .faultStatus s.fault
  | .status => .statusWord (statusWord c s)

/-! ## Transactions -/

/-- The transactions of R255. `commitAssembly` takes the source text: assembling is part of it. -/
inductive Transaction where
  | reset
  | step
  | run
  | clearRegisters
  | clearMemory
  | commitAssembly (source : List Char)
  | loadImage (file : FileRead)
  | saveImage (writable : Bool)
  | read (q : ReadRequest)
  deriving DecidableEq, Repr

/-- What a transaction returns to the host. -/
inductive Reply where
  | none
  | result (r : StepResult)
  | assembly (r : AssemblyResult)
  | load (r : LoadReport)
  | save (r : SaveReport)
  | value (v : ReadValue)
  deriving DecidableEq, Repr

/-- `Transacts c x s t y`: the transaction `x` takes the machine from `s` to `t` and returns `y` (R255). A Run that
does not return has no `t` (R154, R256). -/
inductive Transacts (c : Config) : Transaction → State → State → Reply → Prop where
  | reset {s : State} : Transacts c .reset s (State.resetWith c) .none
  | step {s t : State} (h : Sys2Proof.Machine.step s = .next t) : Transacts c .step s t (.result (stepResult s))
  | run {s t : State} {r : StepResult} (h : Runs s t r) : Transacts c .run s t (.result r)
  | clearRegisters {s : State} : Transacts c .clearRegisters s (s.clearRegisters c) .none
  | clearMemory {s : State} : Transacts c .clearMemory s (s.clearMemory c) .none
  | commitAssembly {s : State} {source : List Char} :
      Transacts c (.commitAssembly source) s (Sys2Proof.Machine.commitAssembly source s).1
        (.assembly (Sys2Proof.Machine.commitAssembly source s).2)
  | loadImage {s : State} {file : FileRead} :
      Transacts c (.loadImage file) s (Sys2Proof.Machine.loadImage file s).1
        (.load (Sys2Proof.Machine.loadImage file s).2)
  | saveImage {s : State} {writable : Bool} :
      Transacts c (.saveImage writable) s s (.save (Sys2Proof.Machine.saveImage writable s))
  | read {s : State} {q : ReadRequest} : Transacts c (.read q) s s (.value (readState c q s))

/-- The states that steps and host transactions reach from reset (R41). -/
inductive Reachable (c : Config) : State → Prop where
  | reset : Reachable c (State.resetWith c)
  | transact {x : Transaction} {s t : State} {y : Reply} (hs : Reachable c s) (h : Transacts c x s t y) :
      Reachable c t

end Sys2Proof.Machine
end

