-- ==== Sys2Proof/Safety.lean ====
section
/-! DEFINITION. What claims about safe states are stated in: the invariants of the machine. -/

namespace Sys2Proof.Machine

/-- R41: N and Z are those of the byte in AC. -/
def State.flagsAgree (s : State) : Prop :=
  s.n = decide (128 ≤ s.ac.toNat) ∧ s.z = decide (s.ac.toNat = 0)

/-- A recorded fault (R222): the engine is halted, PC still names the faulting byte, and the byte is one of R96's. -/
def State.faultHolds (s : State) : Prop :=
  ∀ a o, s.fault = .decodeFault a o → s.run = .halted ∧ s.pc = a ∧ illegalOpcode o = true

/-- The memory is in its canonical form (log entry 5). -/
def State.memoryCanonical (s : State) : Prop := s.mem.wf = true

/-- The three invariants together. -/
structure State.Inv (s : State) : Prop where
  flags : s.flagsAgree
  fault : s.faultHolds
  memory : s.memoryCanonical

/-! ## Words for claims about one step -/

/-- The next step fetches an opcode byte whose nibble is `op` (R91, R143). -/
def State.fetches (s : State) (op : Nat) : Prop := s.fault = .none ∧ (s.mem.read s.pc).toNat / 16 = op

/-- The next step fetches an opcode byte of a valid decode-ROM entry (R96). -/
def State.fetchesLegal (s : State) : Prop := s.fault = .none ∧ illegalOpcode (s.mem.read s.pc) = false

/-- The next step fetches a flag writer: LDA, ADD, OR, AND or NOT, nibbles 2 to 6 (R39). -/
def State.fetchesFlagWriter (s : State) : Prop :=
  s.fault = .none ∧ 2 ≤ (s.mem.read s.pc).toNat / 16 ∧ (s.mem.read s.pc).toNat / 16 ≤ 6

/-- The operand byte, at PC + 1 mod 256 (R145). -/
def State.operand (s : State) : Byte := s.mem.read (s.pc + 1)

/-- RUN after an instruction of `len` bytes other than HLT: Halted if an increment carried out of 255 (R148). -/
def State.runAfter (s : State) (len : Nat) : RunState := if 256 ≤ s.pc.toNat + len then .halted else .running

/-! ## Words for claims about the assembler -/

/-- The mnemonic of an instruction (R95). -/
def mnemonicOf : Instr → Mnemonic
  | .nop => .nop
  | .sta _ => .sta
  | .lda _ => .lda
  | .add _ => .add
  | .or _ => .or
  | .and _ => .and
  | .not => .not
  | .jmp _ => .jmp
  | .jn _ => .jn
  | .jz _ => .jz
  | .hlt => .hlt

/-- An instruction as a source line (R112): its mnemonic, and its operand in decimal. -/
def instrText (i : Instr) : List Char :=
  spelling (mnemonicOf i) ++
    match operandOf i with
    | none => []
    | some a => ' ' :: decimal a.toNat

/-- The source text of a list of instructions, one a line. -/
def listing (is : List Instr) : List Char := is.flatMap fun i => instrText i ++ ['\n']

end Sys2Proof.Machine
end

