-- ==== Sys2Proof/Certificates/Slice0/Obligations.lean ====
section
/-! DEFINITION. The statements for the provers. -/

open Sys2Proof Sys2Proof.Machine

/-! ## Encoding -/

/-- Words of the vectors of `95_test_vectors.md` (Decode) decode to the instructions they stand for. -/
def Obligations.SpecWordsDecode : Prop :=
  decode [0x0F] = .ok .nop [] ∧ decode [0x1F, 0x90] = .ok (.sta 0x90) [] ∧
  decode [0x2F, 0x80] = .ok (.lda 0x80) [] ∧ decode [0x3A, 0x81] = .ok (.add 0x81) [] ∧
  decode [0x45, 0x34] = .ok (.or 0x34) [] ∧ decode [0x5C, 0x33] = .ok (.and 0x33) [] ∧
  decode [0x61, 0x10] = .ok .not [0x10] ∧ decode [0x8E, 0x00] = .ok (.jmp 0x00) [] ∧
  decode [0x93, 0x0A] = .ok (.jn 0x0A) [] ∧ decode [0xA7, 0x10] = .ok (.jz 0x10) [] ∧
  decode [0xF0] = .ok .hlt [] ∧ decode [0x70, 0x00] = .error (.illegalOpcode 0x70) ∧
  decode [0xB0, 0x00] = .error (.illegalOpcode 0xB0) ∧ decode [0xEF, 0x00] = .error (.illegalOpcode 0xEF)

/-- R90, R93, R95, R123: decode and encode are inverse. Every instruction, with every operand, decodes back from its own
bytes, and what stands after it is left; the canonical words are exactly the encodings. -/
def Obligations.DecodeAndEncodeAreInverse : Prop :=
  (∀ (i : Instr) (rest : List Byte), i.wellFormed = true → decode (encode i ++ rest) = .ok i rest) ∧
  (∀ w : List Byte, canonicalWord w = true → ∃ i, i.wellFormed = true ∧ decode w = .ok i [] ∧ encode i = w) ∧
  ∀ i : Instr, i.wellFormed = true → canonicalWord (encode i) = true

/-- R96: the illegal opcode bytes are the 80 values 0x70–0x7F and 0xB0–0xEF, whatever follows them; every other byte
decodes with one operand byte after it; and fetching an illegal one raises DecodeFault. -/
def Obligations.IllegalEncodings : Prop :=
  (∀ (b : Byte) (rest : List Byte),
      ((0x70 ≤ b.toNat ∧ b.toNat ≤ 0x7F) ∨ (0xB0 ≤ b.toNat ∧ b.toNat ≤ 0xEF)) →
        decode (b :: rest) = .error (.illegalOpcode b)) ∧
  (∀ (b o : Byte) (rest : List Byte),
      ¬ ((0x70 ≤ b.toNat ∧ b.toNat ≤ 0x7F) ∨ (0xB0 ≤ b.toNat ∧ b.toNat ≤ 0xEF)) →
        ∃ i rest', decode (b :: o :: rest) = .ok i rest') ∧
  ((Memory.addresses.filter illegalOpcode).length = 80) ∧
  ∀ s : State, s.fault = .none →
    ((0x70 ≤ (s.mem.read s.pc).toNat ∧ (s.mem.read s.pc).toNat ≤ 0x7F) ∨
      (0xB0 ≤ (s.mem.read s.pc).toNat ∧ (s.mem.read s.pc).toNat ≤ 0xEF)) →
    ∃ t, step s = .next t ∧ t.fault = .decodeFault s.pc (s.mem.read s.pc)

/-- R91, R92: decoding depends on bits 7..4 of byte 0 alone; the low nibble changes neither the instruction nor whether
there is one. -/
def Obligations.LowNibbleIsIgnored : Prop :=
  ∀ (op x y : Nibble) (rest : List Byte),
    (decode ((op ++ x : Byte) :: rest)).instr? = (decode ((op ++ y : Byte) :: rest)).instr?

/-- R98, R99: the mnemonic look-up finds exactly the entries whose spelling is the name in lower case. -/
def Obligations.MnemonicLookupIsExact : Prop :=
  ∀ (name : List Char) (e : RomEntry),
    lookupByMnemonic name = some e ↔ some e ∈ rom ∧ spelling e.mnemonic = name.map lowerChar

/-! ## The step around an instruction -/

/-- R142, R145 to R148: with no fault recorded, where the two bytes at PC decode to `i`, the step is `exec` of `i` on the
state with RUN Running and PC past `i`, and then the wrap halt. -/
def Obligations.StepRunsDecodedInstruction : Prop :=
  ∀ (s t : State) (i : Instr) (rest : List Byte), s.fault = .none →
    decode [s.mem.read s.pc, s.mem.read (s.pc + 1)] = .ok i rest →
    exec i { s with run := .running, pc := s.pc + BitVec.ofNat 8 (encode i).length } = .next t →
    step s = .next (if 256 ≤ s.pc.toNat + (encode i).length then { t with run := .halted } else t)

/-- R140, R148, R157: the step result of a decoded instruction. HLT at 255 reports Halted(Hlt). -/
def Obligations.StepResultOfInstruction : Prop :=
  ∀ (s : State) (i : Instr) (rest : List Byte), s.fault = .none →
    decode [s.mem.read s.pc, s.mem.read (s.pc + 1)] = .ok i rest →
    stepResult s = if i = .hlt then .haltedHlt
      else if 256 ≤ s.pc.toNat + (encode i).length then .haltedWrap else .continues

/-- R64, R97, R149: every step answers a next state; none stops with a fault or a refusal. -/
def Obligations.EveryStepAnswersANextState : Prop := ∀ s : State, ∃ t, step s = .next t

/-- R148, R153: after a step the engine is Running exactly where the result is Continue. The premise rules out states
with a recorded fault and a running engine, which no run reaches. -/
def Obligations.RunningExactlyOnContinue : Prop :=
  ∀ s t : State, s.faultHolds → step s = .next t → (t.run = .running ↔ stepResult s = .continues)

/-- R142 (the spec's decision D9, log entry 9): with no fault recorded, a step does not depend on RUN. -/
def Obligations.StepIgnoresRunState : Prop :=
  ∀ (s : State) (r : RunState), s.fault = .none →
    step { s with run := r } = step s ∧ stepResult { s with run := r } = stepResult s

/-! ## One step of each instruction, whole -/

/-- R170: STA. The wrap halt is R148 (D6, log entry 4). -/
def Obligations.StaStep : Prop :=
  ∀ s : State, s.fetches 0x1 →
    step s = .next { s with pc := s.pc + 2, run := s.runAfter 2, mem := s.mem.write s.operand s.ac }

/-- R171: LDA. -/
def Obligations.LdaStep : Prop :=
  ∀ s : State, s.fetches 0x2 →
    let m := s.mem.read s.operand
    step s = .next { s with
      pc := s.pc + 2, run := s.runAfter 2, ac := m, n := decide (128 ≤ m.toNat), z := decide (m.toNat = 0) }

/-- R180: ADD, in unsigned numbers. -/
def Obligations.AddStep : Prop :=
  ∀ s : State, s.fetches 0x3 →
    let r := (s.ac.toNat + (s.mem.read s.operand).toNat) % 256
    step s = .next { s with
      pc := s.pc + 2, run := s.runAfter 2, ac := BitVec.ofNat 8 r, n := decide (128 ≤ r), z := decide (r = 0) }

/-- R181, R182: OR and AND (their memory operand is the spec's decision D10, log entry 10), in unsigned numbers. -/
def Obligations.OrAndStep : Prop :=
  ∀ s : State,
    (s.fetches 0x4 →
      let r := s.ac.toNat ||| (s.mem.read s.operand).toNat
      step s = .next { s with
        pc := s.pc + 2, run := s.runAfter 2, ac := BitVec.ofNat 8 r, n := decide (128 ≤ r), z := decide (r = 0) }) ∧
    (s.fetches 0x5 →
      let r := s.ac.toNat &&& (s.mem.read s.operand).toNat
      step s = .next { s with
        pc := s.pc + 2, run := s.runAfter 2, ac := BitVec.ofNat 8 r, n := decide (128 ≤ r), z := decide (r = 0) })

/-- R183: NOT, as 255 - AC; one byte. -/
def Obligations.NotStep : Prop :=
  ∀ s : State, s.fetches 0x6 →
    let r := 255 - s.ac.toNat
    step s = .next { s with
      pc := s.pc + 1, run := s.runAfter 1, ac := BitVec.ofNat 8 r, n := decide (128 ≤ r), z := decide (r = 0) }

/-- R200 to R202: JMP, JN and JZ. A jump that is not taken leaves PC past its operand, and a taken one does not undo the
wrap halt. -/
def Obligations.JumpSteps : Prop :=
  ∀ s : State,
    (s.fetches 0x8 → step s = .next { s with pc := s.operand, run := s.runAfter 2 }) ∧
    (s.fetches 0x9 → step s = .next { s with pc := if s.n then s.operand else s.pc + 2, run := s.runAfter 2 }) ∧
    (s.fetches 0xA → step s = .next { s with pc := if s.z then s.operand else s.pc + 2, run := s.runAfter 2 })

/-- R210, R211: NOP and HLT (one byte each: the spec's decision D11, log entry 10). -/
def Obligations.NopAndHltSteps : Prop :=
  ∀ s : State,
    (s.fetches 0x0 → step s = .next { s with pc := s.pc + 1, run := s.runAfter 1 }) ∧
    (s.fetches 0xF → step s = .next { s with pc := s.pc + 1, run := .halted })

/-! ## The execute part completes, in every state -/

/-- R170, R171: STA and LDA answer a next state in every state, for every operand: the cell written is the operand's,
and every other cell reads as before. -/
def Obligations.LoadAndStoreComplete : Prop :=
  ∀ (a : Byte) (s : State),
    (∃ t, exec (.sta a) s = .next t ∧ t.mem.read (dataAddress a) = s.ac ∧
      (∀ b, b ≠ dataAddress a → t.mem.read b = s.mem.read b) ∧ t = { s with mem := t.mem }) ∧
    (∃ t, exec (.lda a) s = .next t ∧ t.ac = s.mem.read a ∧
      t.n = decide (128 ≤ (s.mem.read a).toNat) ∧ t.z = decide ((s.mem.read a).toNat = 0) ∧
      t = { s with ac := t.ac, n := t.n, z := t.z })

/-- R180 to R183: ADD, OR, AND and NOT answer a next state in every state, for every operand. -/
def Obligations.ArithmeticCompletes : Prop :=
  ∀ (a : Byte) (s : State),
    (∃ t, exec (.add a) s = .next t ∧ t.ac.toNat = (s.ac.toNat + (s.mem.read a).toNat) % 256 ∧ t.flagsAgree ∧
      t = { s with ac := t.ac, n := t.n, z := t.z }) ∧
    (∃ t, exec (.or a) s = .next t ∧ t.ac.toNat = s.ac.toNat ||| (s.mem.read a).toNat ∧ t.flagsAgree ∧
      t = { s with ac := t.ac, n := t.n, z := t.z }) ∧
    (∃ t, exec (.and a) s = .next t ∧ t.ac.toNat = s.ac.toNat &&& (s.mem.read a).toNat ∧ t.flagsAgree ∧
      t = { s with ac := t.ac, n := t.n, z := t.z }) ∧
    (∃ t, exec .not s = .next t ∧ t.ac.toNat = 255 - s.ac.toNat ∧ t.flagsAgree ∧
      t = { s with ac := t.ac, n := t.n, z := t.z })

/-- R200 to R202: JMP, JN and JZ answer a next state in every state, for every target. -/
def Obligations.JumpsComplete : Prop :=
  ∀ (a : Byte) (s : State),
    exec (.jmp a) s = .next { s with pc := a } ∧
    exec (.jn a) s = .next { s with pc := if s.n then a else s.pc } ∧
    exec (.jz a) s = .next { s with pc := if s.z then a else s.pc }

/-- R210, R211: NOP and HLT answer a next state in every state. -/
def Obligations.NopAndHltComplete : Prop :=
  ∀ s : State, exec .nop s = .next s ∧ exec .hlt s = .next { s with run := .halted }

/-! ## Frames -/

/-- R39, R49, R62: LDA, ADD, OR, AND and NOT change AC, N and Z at most, and no byte of memory. -/
def Obligations.AccumulatorWritersFrame : Prop :=
  ∀ (a : Byte) (i : Instr) (s t : State), i ∈ [Instr.lda a, .add a, .or a, .and a, .not] → exec i s = .next t →
    t.pc = s.pc ∧ t.run = s.run ∧ t.fault = s.fault ∧ ∀ b, t.mem.read b = s.mem.read b

/-- R39, R49, R62, R170: STA changes the byte at its data address at most; no register, flag, RUN or FAULT. -/
def Obligations.StaFrame : Prop :=
  ∀ (a : Byte) (s t : State), exec (.sta a) s = .next t →
    t.pc = s.pc ∧ t.ac = s.ac ∧ t.n = s.n ∧ t.z = s.z ∧ t.run = s.run ∧ t.fault = s.fault ∧
      ∀ x, dataAddress a = x → ∀ b, b ≠ x → t.mem.read b = s.mem.read b

/-- R39, R49, R62: NOP, JMP, JN, JZ and HLT change no accumulator, flag or FAULT and no byte of memory; NOP and HLT
leave PC, and all but HLT leave RUN. -/
def Obligations.ControlAndSystemFrame : Prop :=
  ∀ (a : Byte) (i : Instr) (s t : State), i ∈ [Instr.nop, .jmp a, .jn a, .jz a, .hlt] → exec i s = .next t →
    t.ac = s.ac ∧ t.n = s.n ∧ t.z = s.z ∧ t.fault = s.fault ∧ (∀ b, t.mem.read b = s.mem.read b) ∧
      (i = .nop ∨ i = .hlt → t.pc = s.pc) ∧ (i ≠ .hlt → t.run = s.run)

/-! ## Rules over all instructions -/

/-- R49, R62, R63: a byte of memory changes only where a step fetches STA, at its operand's address, to AC. -/
def Obligations.OnlyStaWritesMemory : Prop :=
  ∀ (s t : State) (a : Byte), step s = .next t → t.mem.read a ≠ s.mem.read a →
    s.fetches 0x1 ∧ a = s.operand ∧ t.mem.read a = s.ac

/-- R39: N and Z are written, both and from the byte in AC, by exactly LDA, ADD, OR, AND and NOT; every other step, a
DecodeFault among them, leaves both. -/
def Obligations.FlagWriters : Prop :=
  ∀ s t : State, step s = .next t →
    (s.fetchesFlagWriter → t.n = decide (128 ≤ t.ac.toNat) ∧ t.z = decide (t.ac.toNat = 0)) ∧
    (¬ s.fetchesFlagWriter → t.n = s.n ∧ t.z = s.z)

/-- R31: AC changes only where a step fetches LDA, ADD, OR, AND or NOT. -/
def Obligations.OnlyFlagWritersWriteAc : Prop :=
  ∀ s t : State, step s = .next t → t.ac ≠ s.ac → s.fetchesFlagWriter

/-- R35, R36: after a step that executes an instruction, PC is the jump target for a taken jump, and otherwise the next
sequential address mod 256, 1 or 2 past the opcode. -/
def Obligations.PcAfterStep : Prop :=
  ∀ s t : State, s.fetchesLegal → step s = .next t →
    ((s.fetches 0x8 ∨ (s.fetches 0x9 ∧ s.n = true) ∨ (s.fetches 0xA ∧ s.z = true)) → t.pc = s.operand) ∧
    (¬ (s.fetches 0x8 ∨ (s.fetches 0x9 ∧ s.n = true) ∨ (s.fetches 0xA ∧ s.z = true)) →
      t.pc.toNat = (s.pc.toNat + if oneByteOpcode (s.mem.read s.pc) then 1 else 2) % 256)

/-! ## DecodeFault -/

/-- R221: a step with no fault recorded raises DecodeFault exactly where bits 7..4 of the byte at PC are 7, B, C, D
or E, whatever its low nibble. -/
def Obligations.DecodeFaultCause : Prop :=
  ∀ s t : State, s.fault = .none → step s = .next t →
    (t.fault = .decodeFault s.pc (s.mem.read s.pc) ↔
      (s.mem.read s.pc).toNat / 16 ∈ [0x7, 0xB, 0xC, 0xD, 0xE]) ∧
    (t.fault = .none ↔ (s.mem.read s.pc).toNat / 16 ∉ [0x7, 0xB, 0xC, 0xD, 0xE])

/-- R222 (the record and PC are the spec's decision D7, log entry 9): taking DecodeFault writes FAULT and RUN, changes
nothing else, reports the fault and reads the opcode byte alone. -/
def Obligations.DecodeFaultEffect : Prop :=
  ∀ s : State, s.fault = .none → illegalOpcode (s.mem.read s.pc) = true →
    step s = .next { s with fault := .decodeFault s.pc (s.mem.read s.pc), run := .halted } ∧
    stepResult s = .decodeFault s.pc (s.mem.read s.pc) ∧ stepAccesses s = [.read s.pc]

/-- R141, R224 (the spec's decision D8, log entry 9): with a fault recorded a step changes nothing, returns the recorded
fault and touches no memory, and a run returns it at once. -/
def Obligations.FaultIsSticky : Prop :=
  ∀ (s : State) (a o : Byte), s.fault = .decodeFault a o →
    step s = .next s ∧ stepResult s = .decodeFault a o ∧ stepAccesses s = [] ∧
      ∀ t r, Runs s t r ↔ t = s ∧ r = .decodeFault a o

/-- R224: of the host's transactions only reset and clear registers take a recorded fault away, and both do. -/
def Obligations.OnlyResetAndClearRegistersClearFault : Prop :=
  ∀ (c : Config) (x : Transaction) (s t : State) (y : Reply), Transacts c x s t y → s.fault ≠ .none →
    (t.fault = .none ↔ x = .reset ∨ x = .clearRegisters)

/-! ## Memory -/

/-- R61, R62: reading after a write gives the value written at its own address, and what was there at every other. -/
def Obligations.WriteChangesOneCell : Prop :=
  ∀ (m : Memory) (a v b : Byte), (m.write a v).read b = if b = a then v else m.read b

/-- The model's own form of memory (log entry 5): canonical memories with the same 256 cells are the same data. -/
def Obligations.SameCellsSameMemory : Prop :=
  ∀ m m' : Memory, m.wf = true → m'.wf = true → m.cells = m'.cells → m = m'

/-- R76, R281 (self-modifying code: the claim rests on the spec's decisions D1 and D17, log entry 20): a store into the
cell after STA is what the next step fetches as its opcode byte, `t.mem.read t.pc`. It covers the next opcode cell
alone. -/
def Obligations.StoreIsSeenByNextFetch : Prop :=
  ∀ s t : State, s.fetches 0x1 → s.operand = s.pc + 2 → step s = .next t → t.mem.read t.pc = s.ac

/-- R63: the accesses of a step, in order, for each instruction and for an illegal opcode byte. -/
def Obligations.AccessesOfStep : Prop :=
  ∀ s : State,
    (s.fetches 0x0 ∨ s.fetches 0x6 ∨ s.fetches 0xF → stepAccesses s = [.read s.pc]) ∧
    (s.fetches 0x8 ∨ s.fetches 0x9 ∨ s.fetches 0xA → stepAccesses s = [.read s.pc, .read (s.pc + 1)]) ∧
    (s.fetches 0x2 ∨ s.fetches 0x3 ∨ s.fetches 0x4 ∨ s.fetches 0x5 →
      stepAccesses s = [.read s.pc, .read (s.pc + 1), .read s.operand]) ∧
    (s.fetches 0x1 → stepAccesses s = [.read s.pc, .read (s.pc + 1), .write s.operand s.ac]) ∧
    (s.fault = .none → illegalOpcode (s.mem.read s.pc) = true → stepAccesses s = [.read s.pc])

/-- R61 to R63, R72: memory after a step is memory before it with the step's writes applied. -/
def Obligations.MemoryIsItsWrites : Prop :=
  ∀ s t : State, step s = .next t → t.mem = (stepAccesses s).foldl Access.apply s.mem

/-! ## ALU -/

/-- R152: ADD's result is right for unsigned and for two's-complement operands alike. -/
def Obligations.AddIsSignednessFree : Prop :=
  ∀ (a : Byte) (s : State), ∃ t, exec (.add a) s = .next t ∧
    (t.ac.toNat : Int) = ((s.ac.toNat : Int) + (s.mem.read a).toNat) % 256 ∧
    t.ac.toInt = (s.ac.toInt + (s.mem.read a).toInt).bmod 256

/-- R95, R147, R150, R151: the control columns of an instruction's decode-ROM entry drive the datapath to what its
meaning does, whatever the operand latch holds where the instruction has no operand. -/
def Obligations.ControlColumnsDriveTheMeanings : Prop :=
  ∀ (i : Instr) (opr : Byte) (s : State), ∃ e, lookupByOpcode (opcodeByteOf i) = some e ∧
    exec i s = .next (datapath e ((operandOf i).getD opr) s)

/-! ## Invariants -/

/-- R250: the state after reset. N, Z, RUN and FAULT at reset are the spec's decisions D4, D5 and D7 (log entries 3
and 9). -/
def Obligations.ResetState : Prop :=
  State.reset.pc = 0 ∧ State.reset.ac = 0 ∧ State.reset.n = false ∧ State.reset.z = true ∧
    State.reset.run = .halted ∧ State.reset.fault = .none ∧
    (∀ a : Byte, State.reset.mem.read a =
      if a.toNat = 128 then 4 else if a.toNat = 129 then 8 else if a.toNat = 130 then 2 else 0) ∧
    State.reset.Inv

/-- R41, R224 and the canonical memory (log entry 5): every step keeps the three invariants, from every state that has
them. -/
def Obligations.StepKeepsInvariants : Prop := ∀ s t : State, s.Inv → step s = .next t → t.Inv

/-- R41: every state that steps and host transactions reach from reset has N = AC[7] and Z = (AC = 0); and in each a
recorded fault means a halted engine with PC at the faulting byte, and memory is canonical. The flags rest on D4 (log
entry 3), PC after a fault on D7 (log entry 9), and the form of memory is the model's own (log entry 5). -/
def Obligations.ReachableStatesHaveInvariants : Prop := ∀ s : State, Reachable Config.decided s → s.Inv

/-! ## Runs -/

/-- R153: Run takes steps until one answers something other than Continue and returns that state and result; where it
returns, RUN is Halted, and while it goes on, RUN is Running; with a fault recorded it returns it at once. -/
def Obligations.RunRepeatsSteps : Prop :=
  (∀ (s t : State) (r : StepResult), Runs s t r ↔
    ∃ u, step s = .next u ∧
      ((stepResult s ≠ .continues ∧ t = u ∧ r = stepResult s) ∨ (stepResult s = .continues ∧ Runs u t r))) ∧
  (∀ (s t : State) (r : StepResult), s.faultHolds → Runs s t r → t.run = .halted ∧ r ≠ .continues) ∧
  (∀ s u : State, s.faultHolds → step s = .next u → stepResult s = .continues → u.run = .running) ∧
  (∀ (s t : State) (r : StepResult) (a o : Byte), s.fault = .decodeFault a o →
    (Runs s t r ↔ t = s ∧ r = .decodeFault a o))

/-- R153, R154, R284: a run from any state either returns one state and one result, or goes on for ever, and never
both. Runs are a relation, with endless runs beside it (log entry 19). -/
def Obligations.RunReturnsOnceOrNever : Prop :=
  ∀ s : State, ((∃ t r, Runs s t r) ∨ RunsForever s) ∧ (∀ t r, Runs s t r → ¬ RunsForever s) ∧
    ∀ t r t' r', Runs s t r → Runs s t' r' → t = t' ∧ r = r'

/-- R153, R154: the run cut off after a number of steps finds a run's end and nothing else. -/
def Obligations.RunWithinFindsTheEnd : Prop :=
  ∀ (s t : State) (r : StepResult), Runs s t r ↔ ∃ k, runWithin k s = some (t, r)

/-! ## Host transactions -/

/-- R253, R254 for every value of the parameters (what the two transactions do is the spec's decisions D14 and D15, log
entry 8). -/
def Obligations.ClearTransactions : Prop :=
  ∀ (c : Config) (s t : State) (y : Reply),
    (Transacts c .clearRegisters s t y →
      t = { pc := 0, ac := 0, n := c.resetN, z := c.resetZ, run := .halted, fault := .none, mem := s.mem }) ∧
    (Transacts c .clearMemory s t y →
      t = { s with mem := t.mem } ∧ ∀ a : Byte, t.mem.read a =
        if c.clearMemoryRestoresPresets = true ∧ a = 128 then 4
        else if c.clearMemoryRestoresPresets = true ∧ a = 129 then 8
        else if c.clearMemoryRestoresPresets = true ∧ a = 130 then 2 else 0)

/-- R49, R255: clear memory, assembly, image load, image save and reads leave every register, flag, RUN and FAULT; save
and reads leave memory as well. -/
def Obligations.HostLeavesRegisters : Prop :=
  ∀ (c : Config) (x : Transaction) (s t : State) (y : Reply), Transacts c x s t y →
    x ∉ [Transaction.reset, .step, .run, .clearRegisters] →
    t = { s with mem := t.mem } ∧ ((∃ w, x = .saveImage w) ∨ (∃ q, x = .read q) → t = s)

/-- R45 (the packing is the spec's decision D7, log entry 9): the four fields of the status word. -/
def Obligations.StatusWordFields : Prop :=
  ∀ (c : Config) (s : State),
    ((statusWord c s).running = 1 ↔ s.run = .running) ∧
    (s.fault = .none →
      (statusWord c s).faultCode = 0 ∧ (statusWord c s).faultAddr = 0 ∧ (statusWord c s).faultOpcode = 0) ∧
    ∀ a o, s.fault = .decodeFault a o →
      (statusWord c s).faultCode = c.faultCodeDecode ∧ (statusWord c s).faultAddr = a ∧
        (statusWord c s).faultOpcode = o

/-! ## Assembler -/

/-- R259: an assembly that reports a diagnostic changes no machine state. -/
def Obligations.FailedAssemblyChangesNothing : Prop :=
  ∀ (source : List Char) (s : State), (assemble source).diagnostics ≠ [] → (commitAssembly source s).1 = s

/-- R112, R123, R125, R258: the listing of any instructions that fit in memory assembles without a diagnostic; committed,
memory holds their encodings from address 0 on and the power-on content after them, and nothing else changes. The
spellings are the spec's decision D12 (log entry 22) and what a commit replaces is D22 (log entry 25). -/
def Obligations.AssembledListingIsItsEncoding : Prop :=
  ∀ (is : List Instr) (s : State), (is.flatMap encode).length ≤ 256 →
    (assemble (listing is)).success = true ∧ (assemble (listing is)).diagnostics = [] ∧
    (commitAssembly (listing is) s).1 = { s with mem := (commitAssembly (listing is) s).1.mem } ∧
    ∀ a : Byte, (commitAssembly (listing is) s).1.mem.read a =
      ((is.flatMap encode)[a.toNat]?).getD (State.reset.mem.read a)

/-- R118: `dw` writes its value high byte first, at the cursor and the cursor after it, adds 2 in both passes and writes
nothing else. -/
def Obligations.DwIsBigEndian : Prop :=
  ∀ (p : Pass2) (q : Pass1) (t : Token) (v : Nat), parseDecimal t = some v → v ≤ 65535 → p.cursor + 1 < 256 →
    (pass2Line p (.dw [t])).cursor = p.cursor + 2 ∧
    (pass2Line p (.dw [t])).diagnostics = p.diagnostics ∧
    (sizeBody q (.dw [t])).cursor = q.cursor + 2 ∧
    (pass2Line p (.dw [t])).image.read (BitVec.ofNat 8 p.cursor) = BitVec.ofNat 8 (v / 256) ∧
    (pass2Line p (.dw [t])).image.read (BitVec.ofNat 8 (p.cursor + 1)) = BitVec.ofNat 8 (v % 256) ∧
    ∀ b : Byte, b.toNat ≠ p.cursor → b.toNat ≠ p.cursor + 1 →
      (pass2Line p (.dw [t])).image.read b = p.image.read b

/-- R119: `dab N(V)` writes `V` into the `N` cells from the cursor on and nothing else, and adds `N` in both passes. -/
def Obligations.DabFillsCells : Prop :=
  ∀ (p : Pass2) (q : Pass1) (t w : Token) (n v : Nat), parseRepeat t = some (n, w) → parseDecimal w = some v →
    v ≤ 255 → p.cursor + n ≤ 256 →
    (pass2Line p (.dab [t])).cursor = p.cursor + n ∧
    (pass2Line p (.dab [t])).diagnostics = p.diagnostics ∧
    (sizeBody q (.dab [t])).cursor = q.cursor + n ∧
    ∀ b : Byte, (pass2Line p (.dab [t])).image.read b =
      if p.cursor ≤ b.toNat ∧ b.toNat < p.cursor + n then BitVec.ofNat 8 v else p.image.read b

/-- R122: substitution writes a label's address in decimal, and a token that is no whole label stays. -/
def Obligations.SubstitutionIsWholeToken : Prop :=
  ∀ (labels : List (Token × Nat)) (t : Token),
    (∀ a, labels.lookup t = some a → parseDecimal (substToken labels t) = some a) ∧
    (labels.lookup t = none → substToken labels t = t)

/-! ## Image file -/

/-- R261, R262: a save is 516 bytes: the magic, then the cell and a padding byte 0 for each address in order; and it
changes no machine state. -/
def Obligations.SavedImageLayout : Prop :=
  ∀ s : State,
    (imageBytes s.mem).length = 516 ∧ (imageBytes s.mem).take 4 = [0x03, 0x4E, 0x44, 0x52] ∧
    (∀ a : Byte, (imageBytes s.mem)[4 + 2 * a.toNat]? = some (s.mem.read a) ∧
      (imageBytes s.mem)[5 + 2 * a.toNat]? = some 0) ∧
    ∀ (c : Config) (t : State) (y : Reply), Transacts c (.saveImage true) s t y →
      t = s ∧ y = .save (.saved (imageBytes s.mem))

/-- V6: loading a saved memory over any memory gives the saved one back, cell for cell and as data. That it is equal as
data rests on the model's canonical form (log entry 5). -/
def Obligations.LoadOfSaveIsIdentity : Prop :=
  ∀ m m' : Memory, m.wf = true → m'.wf = true → loadImageBytes (imageBytes m) m' = some m

/-- R264: a file without the magic changes no state and reports FileFormatMismatch; with it, the value bytes go to the
cells from 0 on, the padding bytes are not read, and nothing else changes. -/
def Obligations.LoadImageEffect : Prop :=
  (∀ (file : List Byte) (s : State), file.take 4 ≠ imageMagic →
    loadImage (.bytes file) s = (s, .fileFormatMismatch)) ∧
  ∀ (pairs : List (Byte × Byte)) (s : State), pairs.length ≤ 256 →
    let r := loadImage (.bytes (imageMagic ++ pairs.flatMap fun p => [p.1, p.2])) s
    r.2 = .loaded ∧ r.1 = { s with mem := r.1.mem } ∧
      ∀ a : Byte, r.1.mem.read a = ((pairs.map Prod.fst)[a.toNat]?).getD (s.mem.read a)

/-- R266: a file the host cannot open, read or write changes no machine state and is reported. -/
def Obligations.IoFailureChangesNothing : Prop :=
  ∀ (c : Config) (s t : State) (y : Reply),
    (Transacts c (.loadImage .failed) s t y → t = s ∧ y = .load .ioFailure) ∧
    (Transacts c (.saveImage false) s t y → t = s ∧ y = .save .ioFailure)

/-! ## Host transactions and the invariants -/

/-- R41, R224: every host transaction keeps the invariants, from every state that has them, under every parameters whose
flags after reset agree with AC = 0 (the spec's decision D4 for the values, log entry 3). PC after a fault is D7 (log
entry 9), what the two clears do is D14 and D15 (log entry 8), that the host sets no flag alone is D16 (log entry 23),
and the form of memory is the model's own (log entry 5). -/
def Obligations.HostTransactionsKeepInvariants : Prop :=
  ∀ (c : Config) (x : Transaction) (s t : State) (y : Reply), c.resetN = false → c.resetZ = true →
    s.Inv → Transacts c x s t y → t.Inv
end

