-- ==== Sys2Proof/Laws/Decode.lean ====
section
/-! SUPPORT. What the decode ROM and the decoder do, said once. -/

namespace Sys2Proof

/-- An entry's fields, for the valid entries of R95: the operand count, the encoder's byte and the length. -/
def RomEntry.sound (e : RomEntry) : Prop :=
  (e.operandCount = 0 ∧ ∀ o, encode (instrOf e.mnemonic o) = [e.opcodeByte]) ∨
    (e.operandCount = 1 ∧ ∀ o, encode (instrOf e.mnemonic o) = [e.opcodeByte, o])

theorem mem_rom_of_romEntry {op : Nibble} {e : RomEntry} (h : romEntry op = some e) : some e ∈ rom := by
  unfold romEntry at h
  cases hg : rom[op.toNat]? with
  | none => simp [hg] at h
  | some x =>
    simp only [hg, Option.join_some] at h
    subst h
    exact List.mem_of_getElem? hg

/-- Every valid entry is sound: one look at the table. -/
theorem sound_of_romEntry {op : Nibble} {e : RomEntry} (h : romEntry op = some e) : e.sound := by
  have := mem_rom_of_romEntry h
  simp only [rom, List.mem_cons, Option.some.injEq, reduceCtorEq, List.not_mem_nil, or_false, false_or] at this
  rcases this with rfl | rfl | rfl | rfl | rfl | rfl | rfl | rfl | rfl | rfl | rfl <;> simp [RomEntry.sound, instrOf, encode, opcodeByteOf, operandOf]

/-- The invalid entries are exactly R96's byte values. -/
theorem lookupByOpcode_isNone (b : Byte) : (lookupByOpcode b).isNone = illegalOpcode b := by
  revert b; decide

theorem lookupByOpcode_eq_none {b : Byte} : lookupByOpcode b = none ↔ illegalOpcode b = true := by
  rw [← lookupByOpcode_isNone, Option.isNone_iff_eq_none]

/-- Decoding an illegal byte. -/
theorem decode_illegal {b : Byte} (rest : List Byte) (h : illegalOpcode b = true) :
    decode (b :: rest) = .error (.illegalOpcode b) := by
  simp [decode, lookupByOpcode_eq_none.2 h]

/-- Decoding a byte whose entry has no operand. -/
theorem decode_noOperand {b : Byte} {e : RomEntry} (rest : List Byte) (h : lookupByOpcode b = some e)
    (h0 : e.operandCount = 0) : decode (b :: rest) = .ok (instrOf e.mnemonic 0) rest := by
  simp [decode, h, h0]

/-- Decoding a byte whose entry has an operand. -/
theorem decode_operand {b o : Byte} {e : RomEntry} (rest : List Byte) (h : lookupByOpcode b = some e)
    (h1 : e.operandCount = 1) : decode (b :: o :: rest) = .ok (instrOf e.mnemonic o) rest := by
  simp [decode, h, h1]

/-- Of two bytes, decode gives an instruction or refuses the first (R97). -/
theorem decode_two_cases (b o : Byte) :
    (illegalOpcode b = true ∧ decode [b, o] = .error (.illegalOpcode b)) ∨
      ∃ e, lookupByOpcode b = some e ∧
        ((e.operandCount = 0 ∧ decode [b, o] = .ok (instrOf e.mnemonic 0) [o]) ∨
          (e.operandCount = 1 ∧ decode [b, o] = .ok (instrOf e.mnemonic o) [])) := by
  cases h : lookupByOpcode b with
  | none => exact .inl ⟨lookupByOpcode_eq_none.1 h, by simp [decode, h]⟩
  | some e =>
    refine .inr ⟨e, rfl, ?_⟩
    rcases sound_of_romEntry h with ⟨h0, -⟩ | ⟨h1, -⟩
    · exact .inl ⟨h0, decode_noOperand [o] h h0⟩
    · exact .inr ⟨h1, decode_operand [] h h1⟩

end Sys2Proof
end

