-- ==== Sys2Proof/Laws/Memory.lean ====
section
/-! SUPPORT. The laws of memory: what each operation reads as, and that each keeps the canonical form. -/

namespace Sys2Proof.Machine.Memory

/-! ## Reading after each operation -/

@[simp] theorem lookup_nil (a : Nat) : lookup [] a = powerOn a := rfl

theorem lookup_without_same (m : Memory) (a : Nat) : lookup (without m a) a = powerOn a := by
  induction m with
  | nil => rfl
  | cons c rest ih =>
    by_cases h : c.1 = a
    · simpa [without, h] using ih
    · simpa [without, h, lookup] using ih

theorem lookup_without_other (m : Memory) {a b : Nat} (h : b ≠ a) : lookup (without m a) b = lookup m b := by
  induction m with
  | nil => rfl
  | cons c rest ih =>
    by_cases hc : c.1 = a
    · have hb : c.1 ≠ b := fun e => h (e.symm.trans hc)
      simpa [without, hc, lookup, show ¬ a = b from fun e => h e.symm] using ih
    · by_cases hb : c.1 = b
      · simp [without, lookup, hb, h]
      · simpa [without, hc, lookup, hb] using ih

theorem lookup_place_same (m : Memory) (a : Nat) (v : Byte) (h : ∀ c ∈ m, c.1 ≠ a) :
    lookup (place m a v) a = v := by
  induction m with
  | nil => simp [place, lookup]
  | cons c rest ih =>
    have hc : c.1 ≠ a := h c (by simp)
    by_cases hlt : c.1 < a
    · simpa [place, hlt, lookup, hc] using ih fun d hd => h d (by simp [hd])
    · simp [place, hlt, lookup]

theorem lookup_place_other (m : Memory) {a b : Nat} (v : Byte) (h : b ≠ a) :
    lookup (place m a v) b = lookup m b := by
  induction m with
  | nil => simp [place, lookup, h.symm]
  | cons c rest ih =>
    by_cases hlt : c.1 < a
    · by_cases hb : c.1 = b
      · rw [place, if_pos hlt, lookup, if_pos hb, lookup, if_pos hb]
      · simpa [place, hlt, lookup, hb] using ih
    · simp [place, hlt, lookup, h.symm]

/-- Reading any address after a write (R61, R62), of any memory, canonical or not. -/
theorem lookup_put (m : Memory) (a b : Nat) (v : Byte) :
    lookup (put m a v) b = if b = a then v else lookup m b := by
  by_cases hv : v = powerOn a
  · by_cases hb : b = a
    · subst hb; simp [put, hv, lookup_without_same]
    · simp [put, hv, hb, lookup_without_other]
  · by_cases hb : b = a
    · subst hb
      simpa [put, hv] using lookup_place_same (without m b) b v (by simp [without])
    · simp [put, hv, hb, lookup_place_other, lookup_without_other]

@[simp] theorem toNat_inj_iff (a b : Byte) : a.toNat = b.toNat ↔ a = b := BitVec.toNat_inj

/-! ## The canonical form -/

theorem wfFrom_mono {lo lo' : Nat} {m : Memory} (hle : lo' ≤ lo) (h : wfFrom lo m = true) : wfFrom lo' m = true := by
  cases m with
  | nil => rfl
  | cons c rest =>
    simp only [wfFrom, Bool.and_eq_true, decide_eq_true_eq] at h ⊢
    exact ⟨⟨⟨by omega, h.1.1.2⟩, h.1.2⟩, h.2⟩

theorem wfFrom_without {lo : Nat} {m : Memory} (a : Nat) (h : wfFrom lo m = true) : wfFrom lo (without m a) = true := by
  induction m generalizing lo with
  | nil => rfl
  | cons c rest ih =>
    simp only [wfFrom, Bool.and_eq_true, decide_eq_true_eq] at h
    by_cases hc : c.1 = a
    · have := wfFrom_mono (lo' := lo) (by omega) (ih h.2)
      simpa [without, hc] using this
    · have := ih h.2
      simp only [without, ne_eq, hc, not_false_eq_true, decide_true, List.filter_cons_of_pos, wfFrom,
        Bool.and_eq_true, decide_eq_true_eq]
      exact ⟨⟨⟨h.1.1.1, h.1.1.2⟩, h.1.2⟩, by simpa [without] using this⟩

theorem wfFrom_place {lo a : Nat} {v : Byte} {m : Memory} (h : wfFrom lo m = true) (hlo : lo ≤ a) (ha : a < 256)
    (hv : v ≠ powerOn a) (hm : ∀ c ∈ m, c.1 ≠ a) : wfFrom lo (place m a v) = true := by
  induction m generalizing lo with
  | nil => simp [place, wfFrom, hlo, ha, hv]
  | cons c rest ih =>
    simp only [wfFrom, Bool.and_eq_true, decide_eq_true_eq] at h
    have hc : c.1 ≠ a := hm c (by simp)
    by_cases hlt : c.1 < a
    · have := ih h.2 (by omega) fun d hd => hm d (by simp [hd])
      simp [place, hlt, wfFrom, this, h.1.1.1, h.1.1.2, h.1.2]
    · have hgt : a + 1 ≤ c.1 := by omega
      simp [place, hlt, wfFrom, hlo, ha, hv, hgt, h.1.1.2, h.1.2, h.2]

/-- Every write keeps the canonical form. -/
theorem wf_put {m : Memory} {a : Nat} (v : Byte) (ha : a < 256) (h : wf m = true) : wf (put m a v) = true := by
  unfold wf put at *
  split
  · exact wfFrom_without a h
  · rename_i hv
    exact wfFrom_place (wfFrom_without a h) (Nat.zero_le a) ha hv (by simp [without])

theorem wf_write {m : Memory} (a v : Byte) (h : wf m = true) : wf (write m a v) = true :=
  wf_put v a.isLt h

@[simp] theorem wf_nil : wf [] = true := rfl

theorem wf_foldl_write (as : List Byte) (v : Byte) {m : Memory} (h : wf m = true) :
    wf (as.foldl (fun m a => m.write a v) m) = true := by
  induction as generalizing m with
  | nil => exact h
  | cons a rest ih => exact ih (wf_write a v h)

theorem wf_fill {m : Memory} (v : Byte) (h : wf m = true) : wf (fill m v) = true := wf_foldl_write _ v h

theorem wf_writePresets {m : Memory} (h : wf m = true) : wf (writePresets m) = true :=
  wf_write _ _ (wf_write _ _ (wf_write _ _ h))

/-! ## Equal contents are equal data -/

theorem lookup_below {lo a : Nat} {m : Memory} (h : wfFrom lo m = true) (ha : a < lo) : lookup m a = powerOn a := by
  induction m generalizing lo with
  | nil => rfl
  | cons c rest ih =>
    simp only [wfFrom, Bool.and_eq_true, decide_eq_true_eq] at h
    have hc : c.1 ≠ a := by omega
    simpa [lookup, hc] using ih h.2 (by omega)

theorem eq_of_lookup_from {lo : Nat} {m m' : Memory} (h : wfFrom lo m = true) (h' : wfFrom lo m' = true)
    (hread : ∀ a, lookup m a = lookup m' a) : m = m' := by
  induction m generalizing lo m' with
  | nil =>
    cases m' with
    | nil => rfl
    | cons c rest =>
      simp only [wfFrom, Bool.and_eq_true, decide_eq_true_eq] at h'
      have := hread c.1
      simp [lookup] at this
      exact absurd this.symm h'.1.2
  | cons c rest ih =>
    simp only [wfFrom, Bool.and_eq_true, decide_eq_true_eq] at h
    cases m' with
    | nil =>
      have := hread c.1
      simp [lookup] at this
      exact absurd this h.1.2
    | cons d rest' =>
      simp only [wfFrom, Bool.and_eq_true, decide_eq_true_eq] at h'
      have hkey : c.1 = d.1 := by
        rcases Nat.lt_trichotomy c.1 d.1 with hlt | heq | hgt
        · have e := hread c.1
          rw [lookup, if_pos rfl, lookup, if_neg (by omega), lookup_below h'.2 (by omega)] at e
          exact absurd e h.1.2
        · exact heq
        · have e := hread d.1
          rw [lookup, if_neg (by omega), lookup_below h.2 (by omega), lookup, if_pos rfl] at e
          exact absurd e.symm h'.1.2
      have hval : c.2 = d.2 := by
        have e := hread c.1
        simpa [lookup, hkey] using e
      have hcd : c = d := Prod.ext hkey hval
      subst hcd
      have hrest : rest = rest' := by
        refine ih h.2 h'.2 fun a => ?_
        by_cases ha : c.1 = a
        · rw [lookup_below h.2 (by omega), lookup_below h'.2 (by omega)]
        · have e := hread a
          simpa [lookup, ha] using e
      rw [hrest]

theorem lookup_of_ge {lo a : Nat} {m : Memory} (h : wfFrom lo m = true) (ha : 256 ≤ a) : lookup m a = powerOn a := by
  induction m generalizing lo with
  | nil => rfl
  | cons c rest ih =>
    simp only [wfFrom, Bool.and_eq_true, decide_eq_true_eq] at h
    have hc : c.1 ≠ a := by omega
    simpa [lookup, hc] using ih h.2

/-! ## Writing a list of addresses -/

theorem lookup_foldl_write (as : List Byte) (v : Byte) (m : Memory) (b : Byte) :
    lookup (as.foldl (fun m a => m.write a v) m) b.toNat = if b ∈ as then v else lookup m b.toNat := by
  induction as generalizing m with
  | nil => simp
  | cons a rest ih =>
    rw [List.foldl_cons, ih]
    by_cases hb : b ∈ rest
    · simp [hb]
    · by_cases hab : b = a <;> simp [hb, hab, write, lookup_put]

theorem mem_addresses (b : Byte) : b ∈ addresses := by
  simp only [addresses, List.mem_map, List.mem_range]
  exact ⟨b.toNat, b.isLt, by simp⟩

end Sys2Proof.Machine.Memory
end

