-- ==== Sys2Proof/Laws/State.lean ====
section
/-! SUPPORT. One lemma per field for each update of the state, each true by rfl. -/

namespace Sys2Proof.Machine

/-! Writing PC. -/

@[simp] theorem State.setPc_pc (s : State) (v : Byte) : (s.setPc v).pc = v := rfl
@[simp] theorem State.setPc_ac (s : State) (v : Byte) : (s.setPc v).ac = s.ac := rfl
@[simp] theorem State.setPc_n (s : State) (v : Byte) : (s.setPc v).n = s.n := rfl
@[simp] theorem State.setPc_z (s : State) (v : Byte) : (s.setPc v).z = s.z := rfl
@[simp] theorem State.setPc_run (s : State) (v : Byte) : (s.setPc v).run = s.run := rfl
@[simp] theorem State.setPc_fault (s : State) (v : Byte) : (s.setPc v).fault = s.fault := rfl
@[simp] theorem State.setPc_mem (s : State) (v : Byte) : (s.setPc v).mem = s.mem := rfl

/-! Writing RUN. -/

@[simp] theorem State.setRun_pc (s : State) (r : RunState) : (s.setRun r).pc = s.pc := rfl
@[simp] theorem State.setRun_ac (s : State) (r : RunState) : (s.setRun r).ac = s.ac := rfl
@[simp] theorem State.setRun_n (s : State) (r : RunState) : (s.setRun r).n = s.n := rfl
@[simp] theorem State.setRun_z (s : State) (r : RunState) : (s.setRun r).z = s.z := rfl
@[simp] theorem State.setRun_run (s : State) (r : RunState) : (s.setRun r).run = r := rfl
@[simp] theorem State.setRun_fault (s : State) (r : RunState) : (s.setRun r).fault = s.fault := rfl
@[simp] theorem State.setRun_mem (s : State) (r : RunState) : (s.setRun r).mem = s.mem := rfl

/-! Writing memory. -/

@[simp] theorem State.memWrite_pc (s : State) (a v : Byte) : (s.memWrite a v).pc = s.pc := rfl
@[simp] theorem State.memWrite_ac (s : State) (a v : Byte) : (s.memWrite a v).ac = s.ac := rfl
@[simp] theorem State.memWrite_n (s : State) (a v : Byte) : (s.memWrite a v).n = s.n := rfl
@[simp] theorem State.memWrite_z (s : State) (a v : Byte) : (s.memWrite a v).z = s.z := rfl
@[simp] theorem State.memWrite_run (s : State) (a v : Byte) : (s.memWrite a v).run = s.run := rfl
@[simp] theorem State.memWrite_fault (s : State) (a v : Byte) : (s.memWrite a v).fault = s.fault := rfl
@[simp] theorem State.memWrite_mem (s : State) (a v : Byte) : (s.memWrite a v).mem = s.mem.write a v := rfl

/-! The flag unit (R151). -/

@[simp] theorem State.writeResult_pc (s : State) (r : Byte) : (s.writeResult r).pc = s.pc := rfl
@[simp] theorem State.writeResult_ac (s : State) (r : Byte) : (s.writeResult r).ac = r := rfl
@[simp] theorem State.writeResult_n (s : State) (r : Byte) : (s.writeResult r).n = negativeFlag r := rfl
@[simp] theorem State.writeResult_z (s : State) (r : Byte) : (s.writeResult r).z = zeroFlag r := rfl
@[simp] theorem State.writeResult_run (s : State) (r : Byte) : (s.writeResult r).run = s.run := rfl
@[simp] theorem State.writeResult_fault (s : State) (r : Byte) : (s.writeResult r).fault = s.fault := rfl
@[simp] theorem State.writeResult_mem (s : State) (r : Byte) : (s.writeResult r).mem = s.mem := rfl

/-! Raising DecodeFault (R222). -/

@[simp] theorem State.raiseDecodeFault_pc (s : State) (a b : Byte) : (s.raiseDecodeFault a b).pc = s.pc := rfl
@[simp] theorem State.raiseDecodeFault_ac (s : State) (a b : Byte) : (s.raiseDecodeFault a b).ac = s.ac := rfl
@[simp] theorem State.raiseDecodeFault_n (s : State) (a b : Byte) : (s.raiseDecodeFault a b).n = s.n := rfl
@[simp] theorem State.raiseDecodeFault_z (s : State) (a b : Byte) : (s.raiseDecodeFault a b).z = s.z := rfl
@[simp] theorem State.raiseDecodeFault_run (s : State) (a b : Byte) : (s.raiseDecodeFault a b).run = .halted := rfl
@[simp] theorem State.raiseDecodeFault_fault (s : State) (a b : Byte) : (s.raiseDecodeFault a b).fault = .decodeFault a b := rfl
@[simp] theorem State.raiseDecodeFault_mem (s : State) (a b : Byte) : (s.raiseDecodeFault a b).mem = s.mem := rfl

/-! Clear registers (R253). -/

@[simp] theorem State.clearRegisters_pc (c : Config) (s : State) : (s.clearRegisters c).pc = 0 := rfl
@[simp] theorem State.clearRegisters_ac (c : Config) (s : State) : (s.clearRegisters c).ac = 0 := rfl
@[simp] theorem State.clearRegisters_n (c : Config) (s : State) : (s.clearRegisters c).n = c.resetN := rfl
@[simp] theorem State.clearRegisters_z (c : Config) (s : State) : (s.clearRegisters c).z = c.resetZ := rfl
@[simp] theorem State.clearRegisters_run (c : Config) (s : State) : (s.clearRegisters c).run = .halted := rfl
@[simp] theorem State.clearRegisters_fault (c : Config) (s : State) : (s.clearRegisters c).fault = .none := rfl
@[simp] theorem State.clearRegisters_mem (c : Config) (s : State) : (s.clearRegisters c).mem = s.mem := rfl

/-! Reset (R250). -/

@[simp] theorem State.resetWith_pc (c : Config) : (State.resetWith c).pc = 0 := rfl
@[simp] theorem State.resetWith_ac (c : Config) : (State.resetWith c).ac = 0 := rfl
@[simp] theorem State.resetWith_n (c : Config) : (State.resetWith c).n = c.resetN := rfl
@[simp] theorem State.resetWith_z (c : Config) : (State.resetWith c).z = c.resetZ := rfl
@[simp] theorem State.resetWith_run (c : Config) : (State.resetWith c).run = .halted := rfl
@[simp] theorem State.resetWith_fault (c : Config) : (State.resetWith c).fault = .none := rfl
@[simp] theorem State.resetWith_mem (c : Config) : (State.resetWith c).mem = [] := rfl

/-! The start of a step (R142) writes RUN alone. -/

@[simp] theorem startStep_pc (s : State) : (startStep s).pc = s.pc := rfl
@[simp] theorem startStep_ac (s : State) : (startStep s).ac = s.ac := rfl
@[simp] theorem startStep_n (s : State) : (startStep s).n = s.n := rfl
@[simp] theorem startStep_z (s : State) : (startStep s).z = s.z := rfl
@[simp] theorem startStep_run (s : State) : (startStep s).run = .running := rfl
@[simp] theorem startStep_fault (s : State) : (startStep s).fault = s.fault := rfl
@[simp] theorem startStep_mem (s : State) : (startStep s).mem = s.mem := rfl

/-! The end of a step (R148) writes RUN alone, and only on a wrap. -/

@[simp] theorem endStep_pc (w : Bool) (s : State) : (endStep w s).pc = s.pc := by cases w <;> rfl
@[simp] theorem endStep_ac (w : Bool) (s : State) : (endStep w s).ac = s.ac := by cases w <;> rfl
@[simp] theorem endStep_n (w : Bool) (s : State) : (endStep w s).n = s.n := by cases w <;> rfl
@[simp] theorem endStep_z (w : Bool) (s : State) : (endStep w s).z = s.z := by cases w <;> rfl
@[simp] theorem endStep_run (w : Bool) (s : State) :
    (endStep w s).run = if w then .halted else s.run := by cases w <;> rfl
@[simp] theorem endStep_fault (w : Bool) (s : State) : (endStep w s).fault = s.fault := by cases w <;> rfl
@[simp] theorem endStep_mem (w : Bool) (s : State) : (endStep w s).mem = s.mem := by cases w <;> rfl

/-! Reading through the state is reading its memory. -/

@[simp] theorem State.memRead_eq (s : State) (a : Byte) : s.memRead a = s.mem.read a := rfl

@[simp] theorem dataByte_eq (s : State) (a : Byte) : dataByte s a = s.mem.read a := rfl

@[simp] theorem dataAddress_eq (a : Byte) : dataAddress a = a := rfl

@[simp] theorem jumpTarget_eq (a : Byte) : jumpTarget a = a := rfl

@[simp] theorem mapNext_next (f : State → State) (s : State) : mapNext f (.next s) = .next (f s) := rfl

end Sys2Proof.Machine
end

