-- ==== Sys2Proof/Laws/Ops.lean ====
section
/-! SUPPORT. One lemma for each shared operation that says what it computes, in the numbers of the spec. -/

namespace Sys2Proof.Machine

/-! ## ALU and flags -/

theorem alu_add_toNat (a b : Byte) : (alu .add a b).toNat = (a.toNat + b.toNat) % 256 := by
  simp [alu, BitVec.toNat_add]

theorem alu_not_toNat (a b : Byte) : (alu .not a b).toNat = 255 - a.toNat := by
  simp [alu, BitVec.toNat_not]

/-- Bit 7 set is the same as the value being at least 128 (R37). -/
theorem negativeFlag_eq (r : Byte) : negativeFlag r = decide (128 ≤ r.toNat) := by
  revert r; decide

theorem zeroFlag_eq (r : Byte) : zeroFlag r = decide (r.toNat = 0) := by
  revert r; decide

/-- The flags after the flag unit are those of AC (R151). -/
theorem writeResult_flagsAgree (s : State) (r : Byte) :
    (s.writeResult r).n = decide (128 ≤ (s.writeResult r).ac.toNat) ∧
      (s.writeResult r).z = decide ((s.writeResult r).ac.toNat = 0) :=
  ⟨negativeFlag_eq r, zeroFlag_eq r⟩

/-! ## PC -/

theorem inc8_fst (v : Byte) : (inc8 v).1 = v + 1 := rfl

theorem inc8_snd (v : Byte) : (inc8 v).2 = decide (256 ≤ v.toNat + 1) := by
  revert v; decide

theorem setPc_setPc (s : State) (v w : Byte) : (s.setPc v).setPc w = s.setPc w := rfl

/-- One or two increments (R145, R146): where PC stands, and that WRAP says whether the sum passed 255. -/
theorem advancePc_one (s : State) : advancePc 1 s = (s.setPc (s.pc + 1), decide (256 ≤ s.pc.toNat + 1)) := by
  simp [advancePc, inc8_fst, inc8_snd]

theorem wrap_two (v : Byte) :
    ((inc8 v).2 || (inc8 (v + 1)).2) = decide (256 ≤ v.toNat + 2) := by
  revert v; decide

theorem advancePc_two (s : State) : advancePc 2 s = (s.setPc (s.pc + 2), decide (256 ≤ s.pc.toNat + 2)) := by
  have h2 : s.pc + 1 + 1 = s.pc + 2 := by rw [BitVec.add_assoc]; rfl
  simp only [advancePc, inc8_fst, State.setPc_pc, setPc_setPc, Bool.or_false, wrap_two, h2]

/-! ## Reading memory -/

/-- Reading any address after a write (R62). -/
theorem Memory.read_write_cases (m : Memory) (a b v : Byte) :
    (b = a ∧ (m.write a v).read b = v) ∨ (b ≠ a ∧ (m.write a v).read b = m.read b) := by
  by_cases h : b = a
  · exact .inl ⟨h, by simp [Memory.read, Memory.write, Memory.lookup_put, h]⟩
  · exact .inr ⟨h, by simp [Memory.read, Memory.write, Memory.lookup_put, h]⟩

theorem Memory.ext_read {m m' : Memory} (h : m.wf = true) (h' : m'.wf = true) (hr : ∀ a, m.read a = m'.read a) :
    m = m' := by
  refine Memory.eq_of_lookup_from h h' fun a => ?_
  by_cases ha : a < 256
  · simpa [Memory.read, Nat.mod_eq_of_lt ha] using hr (BitVec.ofNat 8 a)
  · rw [Memory.lookup_of_ge h (by omega), Memory.lookup_of_ge h' (by omega)]

theorem Memory.read_fill (m : Memory) (v a : Byte) : (m.fill v).read a = v := by
  simp [Memory.fill, Memory.read, Memory.lookup_foldl_write, Memory.mem_addresses]

end Sys2Proof.Machine
end

