-- ==== Sys2Proof/Laws/Host.lean ====
section
/-! SUPPORT. What the host's operations do to memory: clear memory by field, and the canonical form kept by the
assembler and by an image load. -/

namespace Sys2Proof.Machine

/-! ## Clear memory, by field -/

@[simp] theorem State.clearMemory_pc (c : Config) (s : State) : (s.clearMemory c).pc = s.pc := rfl
@[simp] theorem State.clearMemory_ac (c : Config) (s : State) : (s.clearMemory c).ac = s.ac := rfl
@[simp] theorem State.clearMemory_n (c : Config) (s : State) : (s.clearMemory c).n = s.n := rfl
@[simp] theorem State.clearMemory_z (c : Config) (s : State) : (s.clearMemory c).z = s.z := rfl
@[simp] theorem State.clearMemory_run (c : Config) (s : State) : (s.clearMemory c).run = s.run := rfl
@[simp] theorem State.clearMemory_fault (c : Config) (s : State) : (s.clearMemory c).fault = s.fault := rfl
@[simp] theorem State.clearMemory_mem (c : Config) (s : State) :
    (s.clearMemory c).mem =
      if c.clearMemoryRestoresPresets then (s.mem.fill 0).writePresets else s.mem.fill 0 := rfl

theorem State.clearMemory_wf (c : Config) (s : State) (h : s.mem.wf = true) : (s.clearMemory c).mem.wf = true := by
  rw [State.clearMemory_mem]
  split
  · exact Memory.wf_writePresets (Memory.wf_fill 0 h)
  · exact Memory.wf_fill 0 h

/-! ## The assembler -/

/-- `f` keeps the staging image canonical. -/
def keepsImage (f : Pass2 → Pass2) : Prop := ∀ p, p.image.wf = true → (f p).image.wf = true

theorem emitByte_keeps (v : Byte) : keepsImage fun p => emitByte p v := by
  intro p h
  show (emitByte p v).image.wf = true
  unfold emitByte
  split
  · exact Memory.wf_write _ _ h
  · exact h

theorem emitWord_keeps (v : Nat) : keepsImage fun p => emitWord p v :=
  fun p h => emitByte_keeps _ _ (emitByte_keeps _ p h)

theorem repeatEmit_keeps {f : Pass2 → Pass2} (hf : keepsImage f) : ∀ n, keepsImage (repeatEmit f n)
  | 0 => fun _ h => h
  | n + 1 => fun p h => repeatEmit_keeps hf n (f p) (hf p h)

theorem emitValue_keeps {name : Token} {bound size : Nat} {f : Pass2 → Nat → Pass2} {args : List Token}
    (hf : ∀ v, keepsImage fun p => f p v) : keepsImage fun p => emitValue p name bound size f args := by
  intro p h
  show (emitValue p name bound size f args).image.wf = true
  unfold emitValue
  repeat' split
  · exact hf _ p h
  · exact h
  · exact h

theorem emitRepeat_keeps {bound size : Nat} {f : Pass2 → Nat → Pass2} {args : List Token}
    (hf : ∀ v, keepsImage fun p => f p v) : keepsImage fun p => emitRepeat p bound size f args := by
  intro p h
  show (emitRepeat p bound size f args).image.wf = true
  unfold emitRepeat
  repeat' split
  · exact h
  · exact repeatEmit_keeps (hf _) _ p h
  · exact h

theorem emitInstr_keeps (name : Token) (args : List Token) : keepsImage fun p => emitInstr p name args := by
  intro p h
  show (emitInstr p name args).image.wf = true
  unfold emitInstr
  repeat' split
  · exact h
  · exact emitByte_keeps _ p h
  · exact h
  · exact emitByte_keeps _ _ (emitByte_keeps _ p h)
  · exact h
  · exact h

theorem pass2Line_keeps (b : Body) : keepsImage fun p => pass2Line p b := by
  cases b with
  | empty => exact fun p h => h
  | org args =>
    intro p h
    show (pass2Line p (.org args)).image.wf = true
    unfold pass2Line
    repeat' split
    all_goals first | exact h | contradiction
  | db args => exact emitValue_keeps fun v => emitByte_keeps _
  | dw args => exact emitValue_keeps emitWord_keeps
  | dab args => exact emitRepeat_keeps fun v => emitByte_keeps _
  | daw args => exact emitRepeat_keeps emitWord_keeps
  | instr name args => exact emitInstr_keeps name args

/-- The staging image is canonical (R125). -/
theorem assemble_image_wf (source : List Char) : (assemble source).image.wf = true := by
  have key : ∀ (g : SourceLine → Body) (ls : List SourceLine) (p : Pass2), p.image.wf = true →
      (ls.foldl (fun p l => pass2Line p (g l)) p).image.wf = true := by
    intro g ls
    induction ls with
    | nil => exact fun p h => h
    | cons l ls ih => exact fun p h => ih _ (pass2Line_keeps (g l) p h)
  exact key _ _ _ Memory.wf_nil

/-! ## Image load -/

theorem writeCells_wf (a : Nat) (vs : List Byte) {m : Memory} (h : m.wf = true) : (writeCells a vs m).wf = true := by
  induction vs generalizing a m with
  | nil => exact h
  | cons v vs ih =>
    unfold writeCells
    split
    · exact ih _ (Memory.wf_write _ _ h)
    · exact h

theorem loadImageBytes_wf {file : List Byte} {m m' : Memory} (h : m.wf = true)
    (hl : loadImageBytes file m = some m') : m'.wf = true := by
  unfold loadImageBytes at hl
  split at hl
  · injection hl with hl; rw [← hl]; exact writeCells_wf 0 _ h
  · cases hl

/-- What a load may write: the cells from `a` on take the values given, in order; the rest keep theirs (R264). -/
theorem lookup_writeCells (a : Nat) (vs : List Byte) (m : Memory) (b : Byte) (h : a + vs.length ≤ 256) :
    (writeCells a vs m).read b =
      if a ≤ b.toNat then (vs[b.toNat - a]?).getD (m.read b) else m.read b := by
  induction vs generalizing a m with
  | nil => simp [writeCells]
  | cons v vs ih =>
    simp only [List.length_cons] at h
    have ha : a < 256 := by omega
    rw [writeCells, if_pos ha, ih (a + 1) _ (by omega)]
    rcases Nat.lt_trichotomy b.toNat a with hlt | heq | hgt
    · have hb : b ≠ BitVec.ofNat 8 a := fun e => by
        rw [e] at hlt; simp [Nat.mod_eq_of_lt ha] at hlt
      rcases m.read_write_cases (BitVec.ofNat 8 a) b v with ⟨e, _⟩ | ⟨_, e⟩
      · exact absurd e hb
      · rw [if_neg (by omega), if_neg (by omega), e]
    · have hb : b = BitVec.ofNat 8 a := by
        apply BitVec.eq_of_toNat_eq; simp [Nat.mod_eq_of_lt ha, heq]
      rcases m.read_write_cases (BitVec.ofNat 8 a) b v with ⟨_, e⟩ | ⟨e, _⟩
      · rw [if_neg (by omega), if_pos (by omega), e]; simp [heq]
      · exact absurd hb e
    · have hb : b ≠ BitVec.ofNat 8 a := fun e => by
        rw [e] at hgt; simp [Nat.mod_eq_of_lt ha] at hgt
      rcases m.read_write_cases (BitVec.ofNat 8 a) b v with ⟨e, _⟩ | ⟨_, e⟩
      · exact absurd e hb
      · rw [if_pos (by omega), if_pos (by omega), e, show b.toNat - a = (b.toNat - (a + 1)) + 1 by omega]
        simp

end Sys2Proof.Machine
end

