-- ==== Sys2Proof/Laws/PerInstr.lean ====
section
/-! SUPPORT. Statements made instruction by instruction: an instruction decodes back from its own bytes, and its bytes are
a canonical word. -/

namespace Sys2Proof.Laws

/-- The bytes of `i` decode to `i`, and what stands after them is left (R90, R93). -/
def RoundTrip.Statement (i : Instr) : Prop := ∀ rest, decode (encode i ++ rest) = .ok i rest

/-- The bytes of `i` are a canonical word (R90, R123). -/
def Canonical.Statement (i : Instr) : Prop := canonicalWord (encode i) = true

/-- The entry of nibble `op` is found under the byte `op` in the high nibble, 0 in the low one. -/
theorem lookup_canonical (op : Nibble) : lookupByOpcode (op ++ 0#4) = romEntry op := by
  revert op; decide

theorem RoundTrip.nop : RoundTrip.Statement .nop :=
  fun rest => decode_noOperand rest (lookup_canonical 0) rfl
theorem RoundTrip.sta (addr : Byte) : RoundTrip.Statement (.sta addr) :=
  fun rest => decode_operand rest (lookup_canonical 1) rfl
theorem RoundTrip.lda (addr : Byte) : RoundTrip.Statement (.lda addr) :=
  fun rest => decode_operand rest (lookup_canonical 2) rfl
theorem RoundTrip.add (addr : Byte) : RoundTrip.Statement (.add addr) :=
  fun rest => decode_operand rest (lookup_canonical 3) rfl
theorem RoundTrip.or (addr : Byte) : RoundTrip.Statement (.or addr) :=
  fun rest => decode_operand rest (lookup_canonical 4) rfl
theorem RoundTrip.and (addr : Byte) : RoundTrip.Statement (.and addr) :=
  fun rest => decode_operand rest (lookup_canonical 5) rfl
theorem RoundTrip.not : RoundTrip.Statement .not :=
  fun rest => decode_noOperand rest (lookup_canonical 6) rfl
theorem RoundTrip.jmp (addr : Byte) : RoundTrip.Statement (.jmp addr) :=
  fun rest => decode_operand rest (lookup_canonical 8) rfl
theorem RoundTrip.jn (addr : Byte) : RoundTrip.Statement (.jn addr) :=
  fun rest => decode_operand rest (lookup_canonical 9) rfl
theorem RoundTrip.jz (addr : Byte) : RoundTrip.Statement (.jz addr) :=
  fun rest => decode_operand rest (lookup_canonical 10) rfl
theorem RoundTrip.hlt : RoundTrip.Statement .hlt :=
  fun rest => decode_noOperand rest (lookup_canonical 15) rfl

theorem Canonical.nop : Canonical.Statement .nop := by
  unfold Canonical.Statement; decide
theorem Canonical.sta (addr : Byte) : Canonical.Statement (.sta addr) := by
  simp [Canonical.Statement, encode, operandOf, opcodeByteOf, canonicalWord, illegalOpcode, lowNibbleZero, oneByteOpcode]
theorem Canonical.lda (addr : Byte) : Canonical.Statement (.lda addr) := by
  simp [Canonical.Statement, encode, operandOf, opcodeByteOf, canonicalWord, illegalOpcode, lowNibbleZero, oneByteOpcode]
theorem Canonical.add (addr : Byte) : Canonical.Statement (.add addr) := by
  simp [Canonical.Statement, encode, operandOf, opcodeByteOf, canonicalWord, illegalOpcode, lowNibbleZero, oneByteOpcode]
theorem Canonical.or (addr : Byte) : Canonical.Statement (.or addr) := by
  simp [Canonical.Statement, encode, operandOf, opcodeByteOf, canonicalWord, illegalOpcode, lowNibbleZero, oneByteOpcode]
theorem Canonical.and (addr : Byte) : Canonical.Statement (.and addr) := by
  simp [Canonical.Statement, encode, operandOf, opcodeByteOf, canonicalWord, illegalOpcode, lowNibbleZero, oneByteOpcode]
theorem Canonical.not : Canonical.Statement .not := by
  unfold Canonical.Statement; decide
theorem Canonical.jmp (addr : Byte) : Canonical.Statement (.jmp addr) := by
  simp [Canonical.Statement, encode, operandOf, opcodeByteOf, canonicalWord, illegalOpcode, lowNibbleZero, oneByteOpcode]
theorem Canonical.jn (addr : Byte) : Canonical.Statement (.jn addr) := by
  simp [Canonical.Statement, encode, operandOf, opcodeByteOf, canonicalWord, illegalOpcode, lowNibbleZero, oneByteOpcode]
theorem Canonical.jz (addr : Byte) : Canonical.Statement (.jz addr) := by
  simp [Canonical.Statement, encode, operandOf, opcodeByteOf, canonicalWord, illegalOpcode, lowNibbleZero, oneByteOpcode]
theorem Canonical.hlt : Canonical.Statement .hlt := by
  unfold Canonical.Statement; decide

end Sys2Proof.Laws
end

