-- ==== Sys2Proof/Laws/Step.lean ====
section
/-! SUPPORT. What each instruction and a step can do, said once: the equation of each meaning, the front half of a step,
and the inversion of a step into its three cases. -/

namespace Sys2Proof.Machine

/-! ## The meanings -/

@[simp] theorem exec_nop (s : State) : exec .nop s = .next s := rfl
@[simp] theorem exec_sta (a : Byte) (s : State) : exec (.sta a) s = .next (s.memWrite a s.ac) := rfl
@[simp] theorem exec_lda (a : Byte) (s : State) : exec (.lda a) s = .next (s.writeResult (s.mem.read a)) := rfl
@[simp] theorem exec_add (a : Byte) (s : State) :
    exec (.add a) s = .next (s.writeResult (s.ac + s.mem.read a)) := rfl
@[simp] theorem exec_or (a : Byte) (s : State) :
    exec (.or a) s = .next (s.writeResult (s.ac ||| s.mem.read a)) := rfl
@[simp] theorem exec_and (a : Byte) (s : State) :
    exec (.and a) s = .next (s.writeResult (s.ac &&& s.mem.read a)) := rfl
@[simp] theorem exec_not (s : State) : exec .not s = .next (s.writeResult (~~~s.ac)) := rfl
@[simp] theorem exec_jmp (a : Byte) (s : State) : exec (.jmp a) s = .next (s.setPc a) := rfl
@[simp] theorem exec_jn (a : Byte) (s : State) :
    exec (.jn a) s = .next (s.setPc (if s.n then a else s.pc)) := by
  obtain ⟨pc, ac, n, z, run, fault, mem⟩ := s
  cases n <;> rfl
@[simp] theorem exec_jz (a : Byte) (s : State) :
    exec (.jz a) s = .next (s.setPc (if s.z then a else s.pc)) := by
  obtain ⟨pc, ac, n, z, run, fault, mem⟩ := s
  cases z <;> rfl
@[simp] theorem exec_hlt (s : State) : exec .hlt s = .next (s.setRun .halted) := rfl

/-- What an instruction does, over all of them: it writes one byte of memory, or AC and the flags through the flag
unit, or PC, or RUN, or nothing. -/
theorem exec_cases (i : Instr) (s : State) :
    (∃ a, i = .sta a ∧ exec i s = .next (s.memWrite a s.ac)) ∨
      (∃ r, exec i s = .next (s.writeResult r)) ∨
      (∃ v, exec i s = .next (s.setPc v)) ∨
      (i = .hlt ∧ exec i s = .next (s.setRun .halted)) ∨ exec i s = .next s := by
  cases i with
  | nop => exact .inr (.inr (.inr (.inr rfl)))
  | sta a => exact .inl ⟨a, rfl, rfl⟩
  | lda a => exact .inr (.inl ⟨_, rfl⟩)
  | add a => exact .inr (.inl ⟨_, rfl⟩)
  | or a => exact .inr (.inl ⟨_, rfl⟩)
  | and a => exact .inr (.inl ⟨_, rfl⟩)
  | not => exact .inr (.inl ⟨_, rfl⟩)
  | jmp a => exact .inr (.inr (.inl ⟨_, rfl⟩))
  | jn a => exact .inr (.inr (.inl ⟨_, exec_jn a s⟩))
  | jz a => exact .inr (.inr (.inl ⟨_, exec_jz a s⟩))
  | hlt => exact .inr (.inr (.inr (.inl ⟨rfl, rfl⟩)))

/-- No meaning stops. -/
theorem exec_answers (i : Instr) (s : State) : ∃ u, exec i s = .next u := by
  rcases exec_cases i s with ⟨a, _, he⟩ | ⟨r, he⟩ | ⟨v, he⟩ | ⟨_, he⟩ | he <;> exact ⟨_, he⟩

/-! ## The front half -/

/-- On an illegal opcode byte the front half keeps everything (R144). -/
theorem frontEnd_illegal {s : State} (h : illegalOpcode (s.mem.read s.pc) = true) :
    frontEnd s = .illegal (s.mem.read s.pc) := by
  have hb : fetchBytes s = [s.mem.read s.pc] := by simp [fetchBytes, lookupByOpcode_eq_none.2 h]
  simp [frontEnd, hb, decode_illegal [] h]

/-- On bytes that decode, the front half answers that instruction, the wrap latch and PC past it (R145, R146). -/
theorem frontEnd_ready {s : State} {i : Instr} {rest : List Byte}
    (h : decode [s.mem.read s.pc, s.mem.read (s.pc + 1)] = .ok i rest) :
    frontEnd s = .ready i (decide (256 ≤ s.pc.toNat + instrLength i))
      (s.setPc (s.pc + BitVec.ofNat 8 (instrLength i))) := by
  rcases decode_two_cases (s.mem.read s.pc) (s.mem.read (s.pc + 1)) with
    ⟨_, hd⟩ | ⟨e, he, ⟨h0, hd⟩ | ⟨h1, hd⟩⟩
  · rw [hd] at h; cases h
  · rw [hd] at h
    have hi : instrOf e.mnemonic 0 = i := by injection h
    have hb : fetchBytes s = [s.mem.read s.pc] := by simp [fetchBytes, he, h0]
    have hl : instrLength i = 1 := by
      rcases sound_of_romEntry he with ⟨-, hs⟩ | ⟨h1, -⟩
      · rw [← hi, instrLength, hs]; rfl
      · omega
    rw [frontEnd, hb, decode_noOperand [] he h0, hi, hl]
    simp only [hl, advancePc_one]
    rfl
  · rw [hd] at h
    have hi : instrOf e.mnemonic (s.mem.read (s.pc + 1)) = i := by injection h
    have hb : fetchBytes s = [s.mem.read s.pc, s.mem.read (s.pc + 1)] := by
      simp [fetchBytes, he, h1, inc8_fst]
    have hl : instrLength i = 2 := by
      rcases sound_of_romEntry he with ⟨h0, -⟩ | ⟨-, hs⟩
      · omega
      · rw [← hi, instrLength, hs]; rfl
    rw [frontEnd, hb, decode_operand [] he h1, hi, hl]
    simp only [hl, advancePc_two]
    rfl

/-! ## The step -/

/-- A step with a fault recorded (R141). -/
theorem step_faulted {s : State} {a o : Byte} (h : s.fault = .decodeFault a o) : step s = .next s := by
  simp [step, stepWith, h]

/-- A step on an illegal opcode byte (R144, R222). -/
theorem step_illegal {s : State} (hf : s.fault = .none) (h : illegalOpcode (s.mem.read s.pc) = true) :
    step s = .next (s.raiseDecodeFault s.pc (s.mem.read s.pc)) := by
  have := frontEnd_illegal (s := startStep s) (by simpa using h)
  simp only [startStep_mem, startStep_pc] at this
  simp only [step, stepWith, hf, this]
  rfl

/-- A step on bytes that decode (R145 to R148): the meaning, on the state with RUN Running and PC past the instruction,
and the wrap halt after it. -/
theorem step_ready {s : State} {i : Instr} {rest : List Byte} (hf : s.fault = .none)
    (h : decode [s.mem.read s.pc, s.mem.read (s.pc + 1)] = .ok i rest) :
    step s = mapNext (endStep (decide (256 ≤ s.pc.toNat + instrLength i)))
      (exec i ((startStep s).setPc (s.pc + BitVec.ofNat 8 (instrLength i)))) := by
  have := frontEnd_ready (s := startStep s) (i := i) (rest := rest) (by simpa using h)
  simp only [startStep_pc] at this
  simp only [step, stepWith, hf, this]
  rfl

/-- The three cases of a step: a recorded fault, an illegal opcode byte, an instruction. -/
theorem step_cases (s : State) :
    (∃ a o, s.fault = .decodeFault a o ∧ step s = .next s) ∨
      (s.fault = .none ∧ illegalOpcode (s.mem.read s.pc) = true ∧
        step s = .next (s.raiseDecodeFault s.pc (s.mem.read s.pc))) ∨
      (s.fault = .none ∧ illegalOpcode (s.mem.read s.pc) = false ∧ ∃ i rest u,
        decode [s.mem.read s.pc, s.mem.read (s.pc + 1)] = .ok i rest ∧
          exec i ((startStep s).setPc (s.pc + BitVec.ofNat 8 (instrLength i))) = .next u ∧
          step s = .next (endStep (decide (256 ≤ s.pc.toNat + instrLength i)) u)) := by
  cases hf : s.fault with
  | decodeFault a o => exact .inl ⟨a, o, rfl, step_faulted hf⟩
  | none =>
    cases hi : illegalOpcode (s.mem.read s.pc) with
    | true => exact .inr (.inl ⟨rfl, rfl, step_illegal hf hi⟩)
    | false =>
      refine .inr (.inr ⟨rfl, rfl, ?_⟩)
      rcases decode_two_cases (s.mem.read s.pc) (s.mem.read (s.pc + 1)) with
        ⟨h, _⟩ | ⟨e, _, ⟨_, hd⟩ | ⟨_, hd⟩⟩
      · rw [hi] at h; cases h
      · obtain ⟨u, hu⟩ := exec_answers (instrOf e.mnemonic 0) _
        exact ⟨_, _, u, hd, hu, by rw [step_ready hf hd, hu]; rfl⟩
      · obtain ⟨u, hu⟩ := exec_answers (instrOf e.mnemonic (s.mem.read (s.pc + 1))) _
        exact ⟨_, _, u, hd, hu, by rw [step_ready hf hd, hu]; rfl⟩

/-! ## The step's result -/

theorem stepResult_faulted {s : State} {a o : Byte} (h : s.fault = .decodeFault a o) :
    stepResult s = .decodeFault a o := by
  simp [stepResult, h]

theorem stepResult_illegal {s : State} (hf : s.fault = .none) (h : illegalOpcode (s.mem.read s.pc) = true) :
    stepResult s = .decodeFault s.pc (s.mem.read s.pc) := by
  have := frontEnd_illegal (s := startStep s) (by simpa using h)
  simp only [startStep_mem, startStep_pc] at this
  simp only [stepResult, hf, this]

theorem stepResult_ready {s : State} {i : Instr} {rest : List Byte} (hf : s.fault = .none)
    (h : decode [s.mem.read s.pc, s.mem.read (s.pc + 1)] = .ok i rest) :
    stepResult s = if i = .hlt then .haltedHlt
      else if 256 ≤ s.pc.toNat + instrLength i then .haltedWrap else .continues := by
  have := frontEnd_ready (s := startStep s) (i := i) (rest := rest) (by simpa using h)
  simp only [startStep_pc] at this
  simp only [stepResult, hf, this]
  by_cases hw : 256 ≤ s.pc.toNat + instrLength i <;> simp [hw]

end Sys2Proof.Machine
end

