-- ==== Sys2Proof/Tests/Slice0.lean ====
section
/-! SUPPORT. The model's own tests. Expected results are those of `spec/95_test_vectors.md` (the vector's name stands in
the test's name or comment) or of the rule named. Then the witnesses: a concrete state for the hypotheses of each
statement. -/

namespace Sys2Proof.Tests

open Sys2Proof Sys2Proof.Machine

/-- A state that has run nothing, with the given registers and cells over the power-on memory. -/
def mk (pc ac : Byte) (n z : Bool) (cells : List (Byte × Byte)) : State where
  pc := pc
  ac := ac
  n := n
  z := z
  run := .halted
  fault := .none
  mem := cells.foldl (fun m c => m.write c.1 c.2) []

/-- The next state, or none where the step stops. -/
def after (s : State) : Option State :=
  match step s with
  | .next t => some t
  | .fault _ => none
  | .refused _ => none

/-- PC, AC, N, Z and RUN of the next state. -/
def regs (s : State) : Option (Byte × Byte × Bool × Bool × RunState) :=
  (after s).map fun t => (t.pc, t.ac, t.n, t.z, t.run)

/-! ## Well-formed words: an ill-formed word for each check -/

theorem test_illegalOpcode_refused : canonicalWord [0x70, 0x00] = false := by decide
theorem test_lowNibble_refused : canonicalWord [0x2F, 0x80] = false := by decide
theorem test_missingOperand_refused : canonicalWord [0x20] = false := by decide
theorem test_extraOperand_refused : canonicalWord [0x60, 0x00] = false := by decide
theorem test_emptyWord_refused : canonicalWord [] = false := by decide
theorem test_longWord_refused : canonicalWord [0x20, 0x80, 0x00] = false := by decide
theorem test_everyInstruction_wellFormed (i : Instr) : i.wellFormed = true := by cases i <;> rfl

/-! ## Decoding: each constructor's word, from its rule's encoding -/

-- R210: 0000 xxxx
theorem test_decode_nop : decode [0b0000_1011#8] = .ok .nop [] := by decide
-- R170: 0001 xxxx, addr
theorem test_decode_sta : decode [0b0001_0000#8, 0b1000_0010#8] = .ok (.sta 130) [] := by decide
-- R171: 0010 xxxx, addr
theorem test_decode_lda : decode [0b0010_1111#8, 0b1000_0000#8] = .ok (.lda 128) [] := by decide
-- R180: 0011 xxxx, addr
theorem test_decode_add : decode [0b0011_0000#8, 0b1000_0001#8] = .ok (.add 129) [] := by decide
-- R181: 0100 xxxx, addr
theorem test_decode_or : decode [0b0100_0000#8, 0b0011_0100#8] = .ok (.or 52) [] := by decide
-- R182: 0101 xxxx, addr
theorem test_decode_and : decode [0b0101_0000#8, 0b0011_0011#8] = .ok (.and 51) [] := by decide
-- R183: 0110 xxxx
theorem test_decode_not : decode [0b0110_0001#8, 0b0000_0001#8] = .ok .not [0x01] := by decide
-- R200: 1000 xxxx, addr
theorem test_decode_jmp : decode [0b1000_0000#8, 0b1111_1111#8] = .ok (.jmp 255) [] := by decide
-- R201: 1001 xxxx, addr
theorem test_decode_jn : decode [0b1001_0000#8, 0b0000_1010#8] = .ok (.jn 10) [] := by decide
-- R202: 1010 xxxx, addr
theorem test_decode_jz : decode [0b1010_0111#8, 0b0001_0000#8] = .ok (.jz 16) [] := by decide
-- R211: 1111 xxxx
theorem test_decode_hlt : decode [0b1111_0000#8] = .ok .hlt [] := by decide
-- R96: the ends of the two illegal ranges, and the bytes beside them
theorem test_decode_illegal_ends :
    decode [0x7F, 0] = .error (.illegalOpcode 0x7F) ∧ decode [0xB0, 0] = .error (.illegalOpcode 0xB0) ∧
      decode [0xEF, 0] = .error (.illegalOpcode 0xEF) ∧ decode [0x6F, 0] = .ok .not [0] ∧
      decode [0x80, 0] = .ok (.jmp 0) [] ∧ decode [0xAF, 0] = .ok (.jz 0) [] ∧ decode [0xF0, 0] = .ok .hlt [0] := by
  decide
theorem test_decode_truncated :
    decode [] = .error .noOpcode ∧ decode [0x20] = .error (.operandMissing 0x20) := by decide

/-! ## One step of each instruction -/

theorem test_sta_LS1 :
    (after (mk 0x00 0x5A false false [(0, 0x10), (1, 0x90)])).map (fun t => (t.pc, t.ac, t.memRead 0x90, t.run)) =
      some (0x02, 0x5A, 0x5A, .running) := by decide
theorem test_sta_wraps_LS4 :
    (after (mk 0xFE 0x33 false false [(0xFE, 0x10), (0xFF, 0x80)])).map (fun t => (t.pc, t.memRead 0x80, t.run)) =
      some (0x00, 0x33, .halted) := by decide
theorem test_lda_LS6 :
    regs (mk 0x00 0x00 false true [(0, 0x20), (1, 0x40), (0x40, 0x80)]) =
      some (0x02, 0x80, true, false, .running) := by decide
theorem test_lda_spans_the_top_LS10 :
    regs (mk 0xFF 0x00 false true [(0xFF, 0x20), (0x00, 0x80)]) =
      some (0x01, 0x04, false, false, .halted) := by decide
theorem test_add_overflow_not_flagged :
    regs (mk 0x00 0x7F false false [(0, 0x30), (1, 0x40), (0x40, 0x01)]) =
      some (0x02, 0x80, true, false, .running) := by decide
theorem test_add_carry_discarded :
    regs (mk 0x00 0xFF true false [(0, 0x30), (1, 0x40), (0x40, 0x01)]) =
      some (0x02, 0x00, false, true, .running) := by decide
theorem test_or_0B_80 :
    regs (mk 0x00 0x0B false false [(0, 0x40), (1, 0x34), (0x34, 0x80)]) =
      some (0x02, 0x8B, true, false, .running) := by decide
theorem test_and_F0_0F :
    regs (mk 0x00 0xF0 true false [(0, 0x50), (1, 0x33), (0x33, 0x0F)]) =
      some (0x02, 0x00, false, true, .running) := by decide
theorem test_and_FB_0F :
    regs (mk 0x00 0xFB true false [(0, 0x50), (1, 0x33), (0x33, 0x0F)]) =
      some (0x02, 0x0B, false, false, .running) := by decide
theorem test_not_05 :
    regs (mk 0x00 0x05 false false [(0, 0x60)]) = some (0x01, 0xFA, true, false, .running) := by decide
theorem test_not_FF :
    regs (mk 0x00 0xFF true false [(0, 0x61)]) = some (0x01, 0x00, false, true, .running) := by decide
theorem test_jmp_to_zero_CT2 :
    regs (mk 0x10 0x00 false true [(0x10, 0x80), (0x11, 0x00)]) = some (0x00, 0x00, false, true, .running) := by
  decide
theorem test_jmp_wraps_CT3 :
    regs (mk 0xFE 0x00 false true [(0xFE, 0x80), (0xFF, 0x10)]) = some (0x10, 0x00, false, true, .halted) := by
  decide
theorem test_jn_taken_CT4 :
    regs (mk 0x20 0x00 true false [(0x20, 0x90), (0x21, 0x44)]) = some (0x44, 0x00, true, false, .running) := by
  decide
theorem test_jn_not_taken_wraps_CT10 :
    regs (mk 0xFE 0x00 false false [(0xFE, 0x90), (0xFF, 0x10)]) = some (0x00, 0x00, false, false, .halted) := by
  decide
theorem test_jz_not_taken_CT7 :
    regs (mk 0x20 0x00 false false [(0x20, 0xA0), (0x21, 0x44)]) = some (0x22, 0x00, false, false, .running) := by
  decide
theorem test_jz_spans_the_top_CT11 :
    regs (mk 0xFF 0x00 false true [(0xFF, 0xA0), (0x00, 0x40)]) = some (0x40, 0x00, false, true, .halted) := by
  decide
theorem test_nop_S2 :
    regs (mk 0x05 0x12 false false [(0x05, 0x0B)]) = some (0x06, 0x12, false, false, .running) := by decide
theorem test_nop_wraps_S3 :
    regs (mk 0xFF 0x12 false false []) = some (0x00, 0x12, false, false, .halted) ∧
      stepResult (mk 0xFF 0x12 false false []) = .haltedWrap := by decide
theorem test_hlt_S4 :
    regs (mk 0x06 0x12 true false [(0x06, 0xF0)]) = some (0x07, 0x12, true, false, .halted) ∧
      stepResult (mk 0x06 0x12 true false [(0x06, 0xF0)]) = .haltedHlt := by decide
theorem test_hlt_at_255_S5 :
    regs (mk 0xFF 0x12 true false [(0xFF, 0xF0)]) = some (0x00, 0x12, true, false, .halted) ∧
      stepResult (mk 0xFF 0x12 true false [(0xFF, 0xF0)]) = .haltedHlt := by decide

/-! ## DecodeFault -/

theorem test_decodeFault_E1 :
    after (mk 0x05 0x12 false false [(0x05, 0x70)]) =
      some { mk 0x05 0x12 false false [(0x05, 0x70)] with fault := .decodeFault 0x05 0x70, run := .halted } := by
  decide
theorem test_faulted_step_E2 :
    after { mk 0x05 0x12 false false [(0x05, 0x70)] with fault := .decodeFault 0x05 0x70 } =
      some { mk 0x05 0x12 false false [(0x05, 0x70)] with fault := .decodeFault 0x05 0x70 } := by decide
theorem test_decodeFault_at_255_E5 :
    (after (mk 0xFF 0x12 false false [(0xFF, 0xE3)])).map (fun t => (t.pc, t.fault)) =
      some (0xFF, .decodeFault 0xFF 0xE3) := by decide
theorem test_clearRegisters_E4 :
    ({ mk 0x05 0x12 false false [(0x05, 0x70)] with fault := .decodeFault 0x05 0x70 }.clearRegisters
      Config.decided) = mk 0x00 0x00 false true [(0x05, 0x70)] := by decide

/-! ## Reset and the host -/

theorem test_reset_RS1 : State.reset = mk 0x00 0x00 false true [] := by decide
theorem test_reset_presets :
    (State.reset.memRead 128, State.reset.memRead 129, State.reset.memRead 130, State.reset.memRead 131) =
      (4, 8, 2, 0) := by decide
theorem test_clearMemory_RS2 :
    (State.reset.clearMemory Config.decided).mem = [(128, 0), (129, 0), (130, 0)] := by decide +kernel
theorem test_write_back_preset_is_canonical :
    ((State.reset.memWrite 129 7).memWrite 129 8).mem = [] := by decide
theorem test_statusWord_of_fault :
    statusWord Config.decided (State.reset.raiseDecodeFault 0x05 0x70) = ⟨0, 1, 0x05, 0x70⟩ := by decide

/-! ## The host's placing of one instruction -/

theorem test_tableWord_sta : decodeTableWord 16 0x8210 = some (.sta 0x82) := by decide
theorem test_tableWord_short_operand_is_zero : decodeTableWord 8 0x8210 = some (.sta 0x00) := by decide
theorem test_tableWord_illegal : decodeTableWord 8 0x70 = none := by decide
theorem test_withFetchWord_runs_it :
    regs (State.reset.withFetchWord 16 0x8020) = some (0x02, 0x04, false, false, .running) := by decide
theorem test_core_step : Sys2Proof.core.step = step := rfl

/-! ## Assembler -/

/-- The first `n` bytes of the image, with the success flag. -/
def assembled (source : String) (n : Nat) : Bool × List Byte :=
  ((assemble source.toList).success, (assemble source.toList).image.cells.take n)

theorem test_assemble_AS1 :
    assembled "lda 128\nadd 129\nsta 130\nhlt" 7 = (true, [0x20, 0x80, 0x30, 0x81, 0x10, 0x82, 0xF0]) := by decide
theorem test_assemble_dab_daw_AS3 :
    assembled "dab 3(7)\ndaw 2(258)" 7 = (true, [7, 7, 7, 1, 2, 1, 2]) := by decide
theorem test_assemble_out_of_range_AS4 :
    (assemble "db 256".toList).diagnostics = [.badValue "256".toList] := by decide
theorem test_assemble_unknown_AS5 :
    (assemble "foo 1".toList).diagnostics = [.unknownMnemonic "foo".toList] := by decide
theorem test_assemble_forward_AS6 :
    assembled "jmp end\nend:\nhlt" 3 = (true, [0x80, 0x02, 0xF0]) := by decide
theorem test_assemble_label_line_AS7 : assembled "start: lda 5" 2 = (true, [0x20, 0x05]) := by decide
theorem test_assemble_comment_AS8 : assembled "LDA 128   ; load" 2 = (true, [0x20, 0x80]) := by decide
theorem test_assemble_malformed_AS9 :
    (assemble "dab 3 7".toList).diagnostics = [.malformedDirective ["3".toList, "7".toList]] := by decide
theorem test_assemble_count_AS10 :
    (assemble "hlt 5".toList).diagnostics = [.operandCount "hlt".toList] := by decide
theorem test_assemble_past_end_AS11 :
    (assemble "org 255\nlda 1".toList).diagnostics = [.emitPastEnd 256] := by decide
theorem test_assemble_org_AS12 :
    (assemble "org 10\ndb 5".toList).success = true ∧ (assemble "org 10\ndb 5".toList).image = [(10, 5)] := by
  decide
-- Log entry 28: the first fault of a line alone.
theorem test_assemble_first_fault_alone :
    (assemble "hlt 300\nfoo 300".toList).diagnostics =
      [.unknownMnemonic "foo".toList, .operandCount "hlt".toList] := by decide
-- R116: an org with a label fails; log entry 26: one diagnostic.
theorem test_assemble_org_label :
    (assemble "org 3\nhere:\norg here".toList).diagnostics = [.badValue "here".toList] := by decide
theorem test_assemble_label_in_repeat :
    assembled "org 2\nhere: dab 2(here)" 4 = (true, [0, 0, 2, 2]) := by decide

/-! ## Image file -/

theorem test_load_bad_magic_IM2 : loadImageBytes [0x03, 0x4E, 0x44, 0x51] [] = none := by decide
theorem test_load_lone_value_IM4 :
    loadImageBytes [0x03, 0x4E, 0x44, 0x52, 0x05, 0x00, 0x07] [] = some [(0, 5), (1, 7)] := by decide
theorem test_load_short_IM5 : loadImageBytes [0x03, 0x4E, 0x44] [] = none := by decide
theorem test_load_padding_ignored_IM6 :
    loadImageBytes [0x03, 0x4E, 0x44, 0x52, 0x05, 0xFF] [] = some [(0, 5)] := by decide

/-! ## Witnesses

One for each statement that has hypotheses, at a boundary where it has one: a state that meets all of them. -/

/-- STA at 254, the first address whose two increments wrap. -/
def staAtTop : State := mk 0xFE 0x33 false false [(0xFE, 0x10), (0xFF, 0x80)]

/-- The same place with another opcode byte. -/
def atTop (opcode : Byte) : State := mk 0xFE 0x33 false false [(0xFE, opcode), (0xFF, 0x80)]

/-- An illegal opcode byte at 5 (E1). -/
def illegalAt5 : State := mk 0x05 0x12 false false [(0x05, 0x70)]

/-- E1's state after its step. -/
def faultedAt5 : State := { illegalAt5 with fault := .decodeFault 0x05 0x70 }

/-- The self-loop `jmp 0` at 0 (V3), running. -/
def selfLoop : State := { mk 0x00 0x00 false true [(0x00, 0x80)] with run := .running }

theorem witness_IllegalEncodings :
    (0x70 ≤ (0x70#8).toNat ∧ (0x70#8).toNat ≤ 0x7F) ∧ (0xB0 ≤ (0xEF#8).toNat ∧ (0xEF#8).toNat ≤ 0xEF) ∧
      ¬ ((0x70 ≤ (0xF0#8).toNat ∧ (0xF0#8).toNat ≤ 0x7F) ∨ (0xB0 ≤ (0xF0#8).toNat ∧ (0xF0#8).toNat ≤ 0xEF)) ∧
      illegalAt5.fault = .none ∧ illegalAt5.mem.read illegalAt5.pc = 0x70 := by decide

theorem witness_DecodeAndEncodeAreInverse :
    (Instr.lda 0x80).wellFormed = true ∧ canonicalWord [0x20, 0x80] = true ∧ canonicalWord [0xF0] = true := by decide

theorem witness_StepRunsDecodedInstruction :
    staAtTop.fault = .none ∧
      decode [staAtTop.mem.read staAtTop.pc, staAtTop.mem.read (staAtTop.pc + 1)] = .ok (.sta 0x80) [] ∧
      ∃ t, exec (.sta 0x80) { staAtTop with run := .running, pc := staAtTop.pc + 2 } = .next t :=
  ⟨rfl, by decide, _, rfl⟩

theorem witness_StepResultOfInstruction :
    (atTop 0xF0).fault = .none ∧
      decode [(atTop 0xF0).mem.read 0xFE, (atTop 0xF0).mem.read 0xFF] = .ok .hlt [0x80] := ⟨rfl, by decide⟩

theorem witness_RunningExactlyOnContinue :
    staAtTop.faultHolds ∧ ∃ t, step staAtTop = .next t := ⟨fun _ _ h => (by cases h), _, rfl⟩

theorem witness_RunningExactlyOnContinue_faulted : faultedAt5.faultHolds ∧ ∃ t, step faultedAt5 = .next t :=
  ⟨fun a o h => by cases h; decide, _, rfl⟩

theorem witness_StepIgnoresRunState : staAtTop.fault = .none := rfl

theorem witness_StaStep : staAtTop.fetches 0x1 := ⟨rfl, by decide⟩
theorem witness_LdaStep : (atTop 0x2F).fetches 0x2 := ⟨rfl, by decide⟩
theorem witness_AddStep : (atTop 0x30).fetches 0x3 := ⟨rfl, by decide⟩
theorem witness_OrAndStep : (atTop 0x4F).fetches 0x4 ∧ (atTop 0x50).fetches 0x5 := ⟨⟨rfl, by decide⟩, ⟨rfl, by decide⟩⟩
theorem witness_NotStep : (atTop 0x60).fetches 0x6 := ⟨rfl, by decide⟩
theorem witness_JumpSteps : (atTop 0x80).fetches 0x8 ∧ (atTop 0x9F).fetches 0x9 ∧ (atTop 0xA0).fetches 0xA :=
  ⟨⟨rfl, by decide⟩, ⟨rfl, by decide⟩, ⟨rfl, by decide⟩⟩
theorem witness_NopAndHltSteps : (atTop 0x0F).fetches 0x0 ∧ (atTop 0xFF).fetches 0xF :=
  ⟨⟨rfl, by decide⟩, ⟨rfl, by decide⟩⟩

theorem witness_AccumulatorWritersFrame :
    Instr.not ∈ [Instr.lda 0x80, .add 0x80, .or 0x80, .and 0x80, .not] ∧ ∃ t, exec .not staAtTop = .next t :=
  ⟨by decide, _, rfl⟩
theorem witness_StaFrame : ∃ t, exec (.sta 0x80) staAtTop = .next t := ⟨_, rfl⟩
theorem witness_ControlAndSystemFrame :
    Instr.hlt ∈ [Instr.nop, .jmp 0x80, .jn 0x80, .jz 0x80, .hlt] ∧ ∃ t, exec .hlt staAtTop = .next t :=
  ⟨by decide, _, rfl⟩

theorem witness_OnlyStaWritesMemory : ∃ t, step staAtTop = .next t ∧ t.mem.read 0x80 ≠ staAtTop.mem.read 0x80 :=
  ⟨_, rfl, by decide⟩
theorem witness_FlagWriters :
    (∃ t, step (atTop 0x60) = .next t) ∧ (atTop 0x60).fetchesFlagWriter ∧
      (∃ t, step (atTop 0x80) = .next t) ∧ ¬ (atTop 0x80).fetchesFlagWriter :=
  ⟨⟨_, rfl⟩, ⟨rfl, by decide, by decide⟩, ⟨_, rfl⟩, fun h => absurd h.2.2 (by decide)⟩
theorem witness_OnlyFlagWritersWriteAc : ∃ t, step (atTop 0x60) = .next t ∧ t.ac ≠ (atTop 0x60).ac :=
  ⟨_, rfl, by decide⟩
theorem witness_PcAfterStep :
    (atTop 0x80).fetchesLegal ∧ (∃ t, step (atTop 0x80) = .next t) ∧ (atTop 0x80).fetches 0x8 ∧
      (atTop 0x90).fetchesLegal ∧ (∃ t, step (atTop 0x90) = .next t) ∧ (atTop 0x90).fetches 0x9 ∧
      (atTop 0x90).n = false :=
  ⟨⟨rfl, by decide⟩, ⟨_, rfl⟩, ⟨rfl, by decide⟩, ⟨rfl, by decide⟩, ⟨_, rfl⟩, ⟨rfl, by decide⟩, rfl⟩

theorem witness_DecodeFaultCause :
    illegalAt5.fault = .none ∧ (∃ t, step illegalAt5 = .next t) ∧
      (illegalAt5.mem.read illegalAt5.pc).toNat / 16 ∈ [0x7, 0xB, 0xC, 0xD, 0xE] :=
  ⟨rfl, ⟨_, rfl⟩, by decide⟩
theorem witness_DecodeFaultEffect :
    illegalAt5.fault = .none ∧ illegalOpcode (illegalAt5.mem.read illegalAt5.pc) = true := by decide
theorem witness_FaultIsSticky : faultedAt5.fault = .decodeFault 0x05 0x70 := rfl
theorem witness_OnlyResetAndClearRegistersClearFault :
    Transacts Config.decided .clearMemory faultedAt5 (faultedAt5.clearMemory Config.decided) .none ∧
      Transacts Config.decided .clearRegisters faultedAt5 (faultedAt5.clearRegisters Config.decided) .none ∧
      faultedAt5.fault ≠ .none :=
  ⟨.clearMemory, .clearRegisters, by decide⟩

theorem witness_SameCellsSameMemory : Memory.wf [(128, 0), (255, 1)] = true := by decide
theorem witness_StoreIsSeenByNextFetch :
    (mk 0x00 0xF0 false false [(0x00, 0x10), (0x01, 0x02)]).fetches 0x1 ∧
      (mk 0x00 0xF0 false false [(0x00, 0x10), (0x01, 0x02)]).operand = 0x00 + 2 ∧
      ∃ t, step (mk 0x00 0xF0 false false [(0x00, 0x10), (0x01, 0x02)]) = .next t :=
  ⟨⟨rfl, by decide⟩, by decide, _, rfl⟩
theorem witness_AccessesOfStep :
    (atTop 0x00).fetches 0x0 ∧ (atTop 0x80).fetches 0x8 ∧ (atTop 0x20).fetches 0x2 ∧ (atTop 0x10).fetches 0x1 ∧
      (atTop 0x7F).fault = .none ∧ illegalOpcode ((atTop 0x7F).mem.read (atTop 0x7F).pc) = true :=
  ⟨⟨rfl, by decide⟩, ⟨rfl, by decide⟩, ⟨rfl, by decide⟩, ⟨rfl, by decide⟩, rfl, by decide⟩
theorem witness_MemoryIsItsWrites : ∃ t, step staAtTop = .next t ∧ t.mem ≠ staAtTop.mem := ⟨_, rfl, by decide⟩

/-- A state with the invariants whose step changes AC and the flags. -/
theorem witness_StepKeepsInvariants : (atTop 0x60).Inv ∧ ∃ t, step (atTop 0x60) = .next t :=
  ⟨⟨⟨by decide, by decide⟩, fun _ _ h => (by cases h), by unfold State.memoryCanonical; decide⟩, _, rfl⟩
theorem witness_StepKeepsInvariants_faulted : faultedAt5.Inv ∧ ∃ t, step faultedAt5 = .next t :=
  ⟨⟨⟨by decide, by decide⟩, fun a o h => by cases h; decide, by unfold State.memoryCanonical; decide⟩, _, rfl⟩
theorem witness_ReachableStatesHaveInvariants :
    Reachable Config.decided (State.reset.clearMemory Config.decided) :=
  .transact .reset .clearMemory

/-- A run that returns: HLT at 254. -/
theorem witness_Runs : ∃ t, Runs (atTop 0xF0) t .haltedHlt :=
  ⟨_, .stop rfl (by decide)⟩
theorem witness_RunRepeatsSteps_continues :
    selfLoop.faultHolds ∧ step selfLoop = .next selfLoop ∧ stepResult selfLoop = .continues :=
  ⟨fun _ _ h => (by cases h), rfl, by decide⟩
theorem witness_RunRepeatsSteps :
    (atTop 0xF0).faultHolds ∧ (∃ t, Runs (atTop 0xF0) t .haltedHlt) ∧ faultedAt5.fault = .decodeFault 0x05 0x70 :=
  ⟨fun _ _ h => (by cases h), witness_Runs, rfl⟩
/-- A run that never returns (R154, R200: a jump to itself). -/
theorem witness_RunsForever : RunsForever selfLoop := by
  intro k
  induction k with
  | zero => trivial
  | succ k ih => exact ⟨by decide, _, rfl, ih⟩
theorem witness_RunWithinFindsTheEnd :
    (runWithin 2 (mk 0xFD 0 false true [(0xFF, 0xF0)])).isNone = true ∧
      (runWithin 3 (mk 0xFD 0 false true [(0xFF, 0xF0)])).map Prod.snd = some .haltedHlt := by decide

theorem witness_ClearTransactions :
    Transacts Config.decided .clearRegisters staAtTop (staAtTop.clearRegisters Config.decided) .none ∧
      Transacts Config.decided .clearMemory staAtTop (staAtTop.clearMemory Config.decided) .none :=
  ⟨.clearRegisters, .clearMemory⟩
theorem witness_HostLeavesRegisters :
    Transacts Config.decided (.read .pc) staAtTop staAtTop (.value (.byte 0xFE)) ∧
      Transaction.read .pc ∉ [Transaction.reset, .step, .run, .clearRegisters] := ⟨.read, by decide⟩
theorem witness_StatusWordFields : faultedAt5.fault = .decodeFault 0x05 0x70 ∧ staAtTop.fault = .none := ⟨rfl, rfl⟩

theorem witness_FailedAssemblyChangesNothing : (assemble "db 256".toList).diagnostics ≠ [] := by decide
theorem witness_AssembledListingIsItsEncoding :
    ([Instr.lda 128, .add 129, .sta 130, .hlt].flatMap encode).length ≤ 256 ∧
      listing [.lda 128, .hlt] = "lda 128\nhlt\n".toList := by decide
theorem witness_DwIsBigEndian : parseDecimal "4660".toList = some 4660 ∧ 254 + 1 < 256 := by decide
theorem witness_DabFillsCells :
    parseRepeat "3(7)".toList = some (3, "7".toList) ∧ parseDecimal "7".toList = some 7 ∧ 253 + 3 ≤ 256 := by decide
theorem witness_SubstitutionIsWholeToken :
    List.lookup "end".toList [("end".toList, 200)] = some 200 ∧
      List.lookup "ends".toList [("end".toList, 200)] = none := by decide

theorem witness_SavedImageLayout :
    Transacts Config.decided (.saveImage true) staAtTop staAtTop (.save (.saved (imageBytes staAtTop.mem))) :=
  .saveImage
theorem witness_LoadOfSaveIsIdentity : Memory.wf staAtTop.mem = true ∧ Memory.wf [] = true := by decide
theorem witness_LoadImageEffect :
    [0x03#8, 0x4E#8, 0x44#8].take 4 ≠ imageMagic ∧ ([(0x05, 0xFF)] : List (Byte × Byte)).length ≤ 256 := by decide
theorem witness_IoFailureChangesNothing :
    Transacts Config.decided (.loadImage .failed) staAtTop staAtTop (.load .ioFailure) ∧
      Transacts Config.decided (.saveImage false) staAtTop staAtTop (.save .ioFailure) :=
  ⟨.loadImage, .saveImage⟩

theorem witness_HostTransactionsKeepInvariants :
    Config.decided.resetN = false ∧ Config.decided.resetZ = true ∧ faultedAt5.Inv ∧
      Transacts Config.decided .clearMemory faultedAt5 (faultedAt5.clearMemory Config.decided) .none :=
  ⟨rfl, rfl, witness_StepKeepsInvariants_faulted.1, .clearMemory⟩

end Sys2Proof.Tests
end

section
/-! SUPPORT. What the prover's statements about one step need beside the laws above: what a decoded instruction has in
common with the bytes it stands for, and what each field of the state is after `exec`. -/

namespace Sys2Proof

/-! ## An instruction and its bytes -/

theorem encode_eq_cons (i : Instr) : encode i = opcodeByteOf i :: (operandOf i).toList := by
  cases i <;> rfl

/-- A valid entry holds the byte that selects it, its low nibble 0, and an operand count that fits its length
(R92, R93). -/
theorem entry_of_lookupByOpcode {b : Byte} {e : RomEntry} (h : lookupByOpcode b = some e) :
    e.opcodeByte = b &&& 0xF0 ∧ (oneByteOpcode b = true ↔ e.operandCount = 0) := by
  have table : ∀ b : Byte, ∀ e ∈ lookupByOpcode b,
      e.opcodeByte = b &&& 0xF0 ∧ (oneByteOpcode b = true ↔ e.operandCount = 0) := by decide
  exact table b e h

theorem encode_of_lookupByOpcode {b : Byte} {e : RomEntry} (h : lookupByOpcode b = some e) (o : Byte) :
    encode (instrOf e.mnemonic o) = if oneByteOpcode b then [b &&& 0xF0] else [b &&& 0xF0, o] := by
  obtain ⟨hbyte, hone⟩ := entry_of_lookupByOpcode h
  rcases sound_of_romEntry h with ⟨hcount, henc⟩ | ⟨hcount, henc⟩ <;> simp [henc, hbyte, hone, hcount]

/-- The instruction that two bytes decode to encodes as those bytes, but for the low nibble (R92) and an unused
operand byte (R93). -/
theorem encode_of_decode_two {b o : Byte} {i : Instr} {rest : List Byte} (h : decode [b, o] = .ok i rest) :
    encode i = if oneByteOpcode b then [b &&& 0xF0] else [b &&& 0xF0, o] := by
  rcases decode_two_cases b o with ⟨_, hd⟩ | ⟨e, he, ⟨hcount, hd⟩ | ⟨hcount, hd⟩⟩ <;> rw [hd] at h <;> cases h
  · rw [encode_of_lookupByOpcode he, (entry_of_lookupByOpcode he).2.2 hcount]
    rfl
  · rw [encode_of_lookupByOpcode he]

section
variable {b o : Byte} {i : Instr} {rest : List Byte} (h : decode [b, o] = .ok i rest)
include h

theorem instrLength_of_decode_two : instrLength i = if oneByteOpcode b then 1 else 2 := by
  rw [instrLength, encode_of_decode_two h]
  split <;> rfl

theorem opcodeByteOf_of_decode_two : opcodeByteOf i = b &&& 0xF0 := by
  have henc := encode_of_decode_two h
  rw [encode_eq_cons] at henc
  split at henc <;> exact (List.cons.inj henc).1

theorem operandOf_of_decode_two {a : Byte} (ha : operandOf i = some a) : a = o := by
  have henc := encode_of_decode_two h
  rw [encode_eq_cons, ha] at henc
  split at henc <;> simp_all

theorem opcodeNibble_of_decode_two : b.toNat / 16 = (opcodeByteOf i).toNat / 16 := by
  have highNibble : ∀ b : Byte, b.toNat / 16 = (b &&& 0xF0).toNat / 16 := by decide
  rw [opcodeByteOf_of_decode_two h, highNibble b]

end

/-- R96's byte values by their high nibble. -/
theorem illegalOpcode_iff_nibble (b : Byte) :
    illegalOpcode b = true ↔ b.toNat / 16 ∈ [0x7, 0xB, 0xC, 0xD, 0xE] := by
  revert b; decide

/-- The instructions that write AC and the flags (R39). -/
def Instr.writesFlags : Instr → Bool
  | .lda _ | .add _ | .or _ | .and _ | .not => true
  | .nop | .sta _ | .jmp _ | .jn _ | .jz _ | .hlt => false

theorem Instr.writesFlags_iff_nibble (i : Instr) :
    i.writesFlags = true ↔ 2 ≤ (opcodeByteOf i).toNat / 16 ∧ (opcodeByteOf i).toNat / 16 ≤ 6 := by
  cases i <;> simp [Instr.writesFlags, opcodeByteOf]

theorem Instr.isSta_iff_nibble (i : Instr) : (∃ a, i = .sta a) ↔ (opcodeByteOf i).toNat / 16 = 1 := by
  cases i <;> simp [opcodeByteOf]

namespace Machine

/-! ## The fields after `exec` -/

/-- Does `i` write its operand to PC in `s` (R200 to R202)? -/
def jumpTaken (s : State) : Instr → Bool
  | .jmp _ => true
  | .jn _ => s.n
  | .jz _ => s.z
  | .nop | .sta _ | .lda _ | .add _ | .or _ | .and _ | .not | .hlt => false

theorem jumpTaken_iff_nibble (s : State) (i : Instr) :
    jumpTaken s i = true ↔ (opcodeByteOf i).toNat / 16 = 0x8 ∨ ((opcodeByteOf i).toNat / 16 = 0x9 ∧ s.n = true) ∨
      ((opcodeByteOf i).toNat / 16 = 0xA ∧ s.z = true) := by
  cases i <;> simp [jumpTaken, opcodeByteOf]

section
variable {i : Instr} {s u : State} (h : exec i s = .next u)
include h

theorem exec_fault : u.fault = s.fault := by
  rcases exec_cases i s with ⟨a, _, he⟩ | ⟨r, he⟩ | ⟨v, he⟩ | ⟨_, he⟩ | he
  all_goals rw [he] at h; cases h; rfl

theorem exec_run_of_ne_hlt (hi : i ≠ .hlt) : u.run = s.run := by
  rcases exec_cases i s with ⟨a, _, he⟩ | ⟨r, he⟩ | ⟨v, he⟩ | ⟨hhlt, _⟩ | he
  case inr.inr.inr.inl => exact absurd hhlt hi
  all_goals rw [he] at h; cases h; rfl

theorem exec_mem_of_ne_sta (hi : ¬ ∃ a, i = .sta a) : u.mem = s.mem := by
  rcases exec_cases i s with ⟨a, hsta, _⟩ | ⟨r, he⟩ | ⟨v, he⟩ | ⟨_, he⟩ | he
  case inl => exact absurd ⟨a, hsta⟩ hi
  all_goals rw [he] at h; cases h; rfl

/-- A flag writer goes through the flag unit (R151). -/
theorem exec_of_writesFlags (hw : i.writesFlags = true) : ∃ r, u = s.writeResult r := by
  cases i with
  | lda | add | or | and | not => cases h; exact ⟨_, rfl⟩
  | nop | sta | jmp | jn | jz | hlt => cases hw

theorem exec_flags_of_not_writesFlags (hw : ¬ i.writesFlags = true) : u.ac = s.ac ∧ u.n = s.n ∧ u.z = s.z := by
  cases i with
  | lda | add | or | and | not => exact absurd rfl hw
  | nop | sta | jmp | hlt => cases h; exact ⟨rfl, rfl, rfl⟩
  | jn a => rw [exec_jn] at h; cases h; exact ⟨rfl, rfl, rfl⟩
  | jz a => rw [exec_jz] at h; cases h; exact ⟨rfl, rfl, rfl⟩

theorem exec_pc_of_jumpTaken (ht : jumpTaken s i = true) : operandOf i = some u.pc := by
  cases i with
  | jmp a => cases h; rfl
  | jn a => rw [exec_jn, if_pos (show s.n = true from ht)] at h; cases h; rfl
  | jz a => rw [exec_jz, if_pos (show s.z = true from ht)] at h; cases h; rfl
  | nop | sta | lda | add | or | and | not | hlt => cases ht

theorem exec_pc_of_not_jumpTaken (ht : ¬ jumpTaken s i = true) : u.pc = s.pc := by
  cases i with
  | jmp a => exact absurd rfl ht
  | jn a => rw [exec_jn, if_neg (show ¬ s.n = true from ht)] at h; cases h; rfl
  | jz a => rw [exec_jz, if_neg (show ¬ s.z = true from ht)] at h; cases h; rfl
  | nop | sta | lda | add | or | and | not | hlt => cases h; rfl

end

/-! ## The fields after a step -/

/-- `i` is what the next step of `s` runs, and `u` what `i` makes of the state with PC past it (R145 to R147). -/
def runsTo (s : State) (i : Instr) (u : State) : Prop :=
  (∃ rest, decode [s.mem.read s.pc, s.mem.read (s.pc + 1)] = .ok i rest) ∧
    exec i ((startStep s).setPc (s.pc + BitVec.ofNat 8 (instrLength i))) = .next u

/-- The three cases of a step, told of its next state (R141, R144, R148). -/
theorem next_cases {s t : State} (h : step s = .next t) :
    (s.fault ≠ .none ∧ t = s) ∨
      (s.fault = .none ∧ illegalOpcode (s.mem.read s.pc) = true ∧
        t = s.raiseDecodeFault s.pc (s.mem.read s.pc)) ∨
      (s.fetchesLegal ∧ ∃ i u, runsTo s i u ∧ t = endStep (decide (256 ≤ s.pc.toNat + instrLength i)) u) := by
  rcases step_cases s with ⟨a, o, hf, hs⟩ | ⟨hf, hi, hs⟩ | ⟨hf, hi, i, rest, u, hd, hu, hs⟩
  all_goals rw [h] at hs; cases hs
  · exact .inl ⟨by simp [hf], rfl⟩
  · exact .inr (.inl ⟨hf, hi, rfl⟩)
  · exact .inr (.inr ⟨⟨hf, hi⟩, i, u, ⟨⟨rest, hd⟩, hu⟩, rfl⟩)

/-- What the words for the fetched byte say of the instruction that runs. -/
theorem nibble_of_runsTo {s u : State} {i : Instr} (hr : runsTo s i u) :
    (s.mem.read s.pc).toNat / 16 = (opcodeByteOf i).toNat / 16 := by
  obtain ⟨⟨rest, hd⟩, -⟩ := hr
  exact opcodeNibble_of_decode_two hd

theorem fetches_iff_of_runsTo {s u : State} {i : Instr} {op : Nat} (hl : s.fetchesLegal) (hr : runsTo s i u) :
    s.fetches op ↔ (opcodeByteOf i).toNat / 16 = op := by
  rw [← nibble_of_runsTo hr]
  exact and_iff_right hl.1

theorem fetchesFlagWriter_iff_of_runsTo {s u : State} {i : Instr} (hl : s.fetchesLegal) (hr : runsTo s i u) :
    s.fetchesFlagWriter ↔ i.writesFlags = true := by
  rw [Instr.writesFlags_iff_nibble, ← nibble_of_runsTo hr]
  exact and_iff_right hl.1

theorem operand_of_runsTo {s u : State} {i : Instr} {a : Byte} (hr : runsTo s i u) (ha : operandOf i = some a) :
    a = s.operand := by
  obtain ⟨⟨rest, hd⟩, -⟩ := hr
  exact operandOf_of_decode_two hd ha

theorem State.fetches.legal {s : State} {op : Nat} (h : s.fetches op) (hop : op ∉ [0x7, 0xB, 0xC, 0xD, 0xE]) :
    s.fetchesLegal := by
  obtain ⟨hf, rfl⟩ := h
  exact ⟨hf, by rwa [← illegalOpcode_iff_nibble, Bool.not_eq_true] at hop⟩

theorem State.fetchesFlagWriter.legal {s : State} (h : s.fetchesFlagWriter) : s.fetchesLegal := by
  obtain ⟨hf, hlo, hhi⟩ := h
  refine State.fetches.legal ⟨hf, rfl⟩ fun hmem => ?_
  simp only [List.mem_cons, List.not_mem_nil, or_false] at hmem
  omega

/-- The step of a legal opcode byte (R145 to R148). -/
theorem next_of_fetchesLegal {s t : State} (hl : s.fetchesLegal) (h : step s = .next t) :
    ∃ i u, runsTo s i u ∧ t = endStep (decide (256 ≤ s.pc.toNat + instrLength i)) u := by
  rcases next_cases h with ⟨hf, _⟩ | ⟨_, hi, _⟩ | ⟨_, hex⟩
  · exact absurd hl.1 hf
  · exact absurd hi (by simp [hl.2])
  · exact hex

/-- Every other step writes FAULT and RUN at most (R141, R222). -/
theorem next_of_not_fetchesLegal {s t : State} (hl : ¬ s.fetchesLegal) (h : step s = .next t) :
    t.pc = s.pc ∧ t.ac = s.ac ∧ t.n = s.n ∧ t.z = s.z ∧ t.mem = s.mem := by
  rcases next_cases h with ⟨_, rfl⟩ | ⟨_, _, rfl⟩ | ⟨hlegal, _⟩
  · exact ⟨rfl, rfl, rfl, rfl, rfl⟩
  · exact ⟨rfl, rfl, rfl, rfl, rfl⟩
  · exact absurd hlegal hl

/-- The flags after the step of a flag writer are those of AC (R39, R151). -/
theorem step_flagsAgree {s t : State} (hw : s.fetchesFlagWriter) (h : step s = .next t) : t.flagsAgree := by
  obtain ⟨i, u, hr, rfl⟩ := next_of_fetchesLegal hw.legal h
  obtain ⟨r, rfl⟩ := exec_of_writesFlags hr.2 ((fetchesFlagWriter_iff_of_runsTo hw.legal hr).1 hw)
  simpa only [State.flagsAgree, endStep_ac, endStep_n, endStep_z] using writeResult_flagsAgree _ r

/-- Every other step keeps AC, N and Z (R39). -/
theorem step_keeps_flags {s t : State} (hw : ¬ s.fetchesFlagWriter) (h : step s = .next t) :
    t.ac = s.ac ∧ t.n = s.n ∧ t.z = s.z := by
  by_cases hl : s.fetchesLegal
  · obtain ⟨i, u, hr, rfl⟩ := next_of_fetchesLegal hl h
    simpa using exec_flags_of_not_writesFlags hr.2 (mt (fetchesFlagWriter_iff_of_runsTo hl hr).2 hw)
  · obtain ⟨-, hac, hn, hz, -⟩ := next_of_not_fetchesLegal hl h
    exact ⟨hac, hn, hz⟩

/-- Memory after the step of STA (R170). -/
theorem step_mem_of_sta {s t : State} (hs : s.fetches 0x1) (h : step s = .next t) :
    t.mem = s.mem.write s.operand s.ac := by
  have hl := hs.legal (by decide)
  obtain ⟨i, u, hr, rfl⟩ := next_of_fetchesLegal hl h
  obtain ⟨a, rfl⟩ := i.isSta_iff_nibble.2 ((fetches_iff_of_runsTo hl hr).1 hs)
  have ha : a = s.operand := operand_of_runsTo hr rfl
  obtain ⟨-, hu⟩ := hr
  cases hu
  simp [ha]

/-- Every other step keeps memory (R62, R63). -/
theorem step_keeps_mem {s t : State} (hs : ¬ s.fetches 0x1) (h : step s = .next t) : t.mem = s.mem := by
  by_cases hl : s.fetchesLegal
  · obtain ⟨i, u, hr, rfl⟩ := next_of_fetchesLegal hl h
    have hi : ¬ ∃ a, i = .sta a := fun hsta =>
      hs ((fetches_iff_of_runsTo hl hr).2 (i.isSta_iff_nibble.1 hsta))
    simpa using exec_mem_of_ne_sta hr.2 hi
  · obtain ⟨-, -, -, -, hmem⟩ := next_of_not_fetchesLegal hl h
    exact hmem

end Machine
end Sys2Proof
end

section
/-! SUPPORT. The invariants: each kept by a step, by a run, and by what the host does. -/

namespace Sys2Proof.Machine

/-! ## A step -/

theorem step_keeps_flagsAgree {s t : State} (hi : s.flagsAgree) (h : step s = .next t) : t.flagsAgree := by
  by_cases hw : s.fetchesFlagWriter
  · exact step_flagsAgree hw h
  · obtain ⟨hac, hn, hz⟩ := step_keeps_flags hw h
    simpa only [State.flagsAgree, hac, hn, hz] using hi

theorem step_keeps_memoryCanonical {s t : State} (hi : s.memoryCanonical) (h : step s = .next t) :
    t.memoryCanonical := by
  by_cases hs : s.fetches 0x1
  · simpa only [State.memoryCanonical, step_mem_of_sta hs h] using Memory.wf_write _ _ hi
  · simpa only [State.memoryCanonical, step_keeps_mem hs h] using hi

/-- A fault is recorded before the step, or by it with RUN Halted and PC at the byte (R222), or not at all. -/
theorem step_keeps_faultHolds {s t : State} (hi : s.faultHolds) (h : step s = .next t) : t.faultHolds := by
  rcases next_cases h with ⟨_, rfl⟩ | ⟨_, hop, rfl⟩ | ⟨hl, i, u, hr, rfl⟩
  · exact hi
  · intro a o hfault
    cases hfault
    exact ⟨rfl, rfl, hop⟩
  · have hnone : u.fault = .none := (exec_fault hr.2).trans hl.1
    intro a o hfault
    rw [endStep_fault, hnone] at hfault
    cases hfault

theorem step_keeps_inv {s t : State} (hi : s.Inv) (h : step s = .next t) : t.Inv where
  flags := step_keeps_flagsAgree hi.flags h
  fault := step_keeps_faultHolds hi.fault h
  memory := step_keeps_memoryCanonical hi.memory h

theorem runs_keeps_inv {s t : State} {r : StepResult} (hi : s.Inv) (h : Runs s t r) : t.Inv := by
  induction h with
  | stop hstep _ => exact step_keeps_inv hi hstep
  | more hstep _ _ ih => exact ih (step_keeps_inv hi hstep)

/-! ## The host -/

/-- A state whose registers are those of reset has the invariants, where the flags after reset agree with AC = 0 (D4)
and memory is canonical. -/
theorem inv_of_resetRegisters {c : Config} {m : Memory} (hn : c.resetN = false) (hz : c.resetZ = true)
    (hm : m.wf = true) : State.Inv { State.resetWith c with mem := m } where
  flags := by simp [State.flagsAgree, hn, hz]
  fault := fun _ _ hfault => by cases hfault
  memory := hm

theorem State.Inv.withMem {s : State} {m : Memory} (hi : s.Inv) (hm : m.wf = true) :
    State.Inv { s with mem := m } where
  flags := hi.flags
  fault := hi.fault
  memory := hm

/-- An assembly writes memory alone (D22): the staging image, or nothing. -/
theorem commitAssembly_eq (source : List Char) (s : State) :
    (commitAssembly source s).1 = s ∨ (commitAssembly source s).1 = { s with mem := (assemble source).image } := by
  cases hs : (assemble source).success with
  | false => exact .inl (by simp [commitAssembly, hs])
  | true => exact .inr (by simp [commitAssembly, hs])

/-- A load writes memory alone (R264, R266). -/
theorem loadImage_eq (file : FileRead) (s : State) :
    (loadImage file s).1 = s ∨
      ∃ content m, loadImageBytes content s.mem = some m ∧ (loadImage file s).1 = { s with mem := m } := by
  cases file with
  | failed => exact .inl rfl
  | bytes content =>
    cases hl : loadImageBytes content s.mem with
    | none => exact .inl (by simp [loadImage, hl])
    | some m => exact .inr ⟨content, m, hl, by simp [loadImage, hl]⟩

theorem commitAssembly_keeps_inv {s : State} (source : List Char) (hi : s.Inv) : (commitAssembly source s).1.Inv := by
  rcases commitAssembly_eq source s with h | h
  · rw [h]; exact hi
  · rw [h]; exact hi.withMem (assemble_image_wf source)

theorem loadImage_keeps_inv {s : State} (file : FileRead) (hi : s.Inv) : (loadImage file s).1.Inv := by
  rcases loadImage_eq file s with h | ⟨content, m, hl, h⟩
  · rw [h]; exact hi
  · rw [h]; exact hi.withMem (loadImageBytes_wf hi.memory hl)

theorem transacts_keeps_inv {c : Config} {x : Transaction} {s t : State} {y : Reply} (hn : c.resetN = false)
    (hz : c.resetZ = true) (hi : s.Inv) (h : Transacts c x s t y) : t.Inv := by
  cases h with
  | reset => exact inv_of_resetRegisters hn hz Memory.wf_nil
  | step hstep => exact step_keeps_inv hi hstep
  | run hrun => exact runs_keeps_inv hi hrun
  | clearRegisters => exact inv_of_resetRegisters hn hz hi.memory
  | clearMemory => exact hi.withMem (State.clearMemory_wf c s hi.memory)
  | commitAssembly => exact commitAssembly_keeps_inv _ hi
  | loadImage => exact loadImage_keeps_inv _ hi
  | saveImage => exact hi
  | read => exact hi

end Sys2Proof.Machine
end

section
/-! The statements of the family `10_state.md`, settled. -/

namespace Sys2Proof.Machine

/-- Settles O41: each of the three invariants is kept by a step. -/
theorem stepKeepsInvariants : Obligations.StepKeepsInvariants :=
  fun _ _ hi h => step_keeps_inv hi h

/-- Settles O58, by the cases of a transaction; a run is an induction over its steps. -/
theorem hostTransactionsKeepInvariants : Obligations.HostTransactionsKeepInvariants :=
  fun _ _ _ _ _ hn hz hi h => transacts_keeps_inv hn hz hi h

/-- Settles O25: STA writes AC to one cell, and every other step keeps memory. -/
theorem onlyStaWritesMemory : Obligations.OnlyStaWritesMemory := by
  intro s t a h hne
  by_cases hs : s.fetches 0x1
  · have hmem := step_mem_of_sta hs h
    rcases s.mem.read_write_cases s.operand a s.ac with ⟨ha, hv⟩ | ⟨_, hv⟩
    · exact ⟨hs, ha, by rw [hmem, hv]⟩
    · exact absurd (by rw [hmem, hv]) hne
  · exact absurd (by rw [step_keeps_mem hs h]) hne

/-- Settles O26: a flag writer goes through the flag unit, and every other step keeps both flags. -/
theorem flagWriters : Obligations.FlagWriters :=
  fun _ _ h => ⟨fun hw => step_flagsAgree hw h, fun hw => (step_keeps_flags hw h).2⟩

/-- Settles O27: a step that fetches no flag writer keeps AC. -/
theorem onlyFlagWritersWriteAc : Obligations.OnlyFlagWritersWriteAc := by
  intro s t h hne
  by_contra hw
  exact hne (step_keeps_flags hw h).1

/-- Settles O28: `exec` finds PC past the instruction, and writes it only for a taken jump. -/
theorem pcAfterStep : Obligations.PcAfterStep := by
  intro s t hl h
  obtain ⟨i, u, hr, rfl⟩ := next_of_fetchesLegal hl h
  have htaken := jumpTaken_iff_nibble ((startStep s).setPc (s.pc + BitVec.ofNat 8 (instrLength i))) i
  simp only [State.setPc_n, State.setPc_z, startStep_n, startStep_z] at htaken
  simp only [fetches_iff_of_runsTo hl hr, ← htaken, endStep_pc]
  constructor
  · intro ht
    exact operand_of_runsTo hr (exec_pc_of_jumpTaken hr.2 ht)
  · intro ht
    obtain ⟨⟨rest, hd⟩, hu⟩ := hr
    rw [exec_pc_of_not_jumpTaken hu ht, State.setPc_pc, instrLength_of_decode_two hd]
    split <;> simp [BitVec.toNat_add]

/-- Settles O42, by induction over the transactions from reset. -/
theorem reachableStatesHaveInvariants : Obligations.ReachableStatesHaveInvariants := by
  intro s hs
  induction hs with
  | reset => exact inv_of_resetRegisters (c := Config.decided) rfl rfl Memory.wf_nil
  | transact _ h ih => exact transacts_keeps_inv rfl rfl ih h

/-- Settles O47, by the cases of a transaction. -/
theorem hostLeavesRegisters : Obligations.HostLeavesRegisters := by
  intro c x s t y h hx
  cases h with
  | reset | step | run | clearRegisters => simp at hx
  | clearMemory => exact ⟨rfl, by simp⟩
  | commitAssembly =>
    refine ⟨?_, by simp⟩
    rcases commitAssembly_eq _ s with h | h <;> rw [h]
  | loadImage =>
    refine ⟨?_, by simp⟩
    rcases loadImage_eq _ s with h | ⟨_, _, _, h⟩ <;> rw [h]
  | saveImage | read => exact ⟨rfl, fun _ => rfl⟩

/-- Settles O22: each of the five goes through the flag unit. -/
theorem accumulatorWritersFrame : Obligations.AccumulatorWritersFrame := by
  intro a i s t hmem h
  have hw : i.writesFlags = true := by
    simp only [List.mem_cons, List.not_mem_nil, or_false] at hmem
    rcases hmem with rfl | rfl | rfl | rfl | rfl <;> rfl
  obtain ⟨r, rfl⟩ := exec_of_writesFlags h hw
  exact ⟨rfl, rfl, rfl, fun _ => rfl⟩

/-- Settles O23: the one write of STA is at its data address. -/
theorem staFrame : Obligations.StaFrame := by
  intro a s t h
  cases h
  refine ⟨rfl, rfl, rfl, rfl, rfl, rfl, ?_⟩
  rintro _ rfl b hb
  rcases s.mem.read_write_cases (dataAddress a) b s.ac with ⟨heq, _⟩ | ⟨_, hread⟩
  · exact absurd heq hb
  · exact hread

/-- Settles O24: none of the five is a flag writer or STA, and NOP and HLT are no jump. -/
theorem controlAndSystemFrame : Obligations.ControlAndSystemFrame := by
  intro a i s t hmem h
  simp only [List.mem_cons, List.not_mem_nil, or_false] at hmem
  have hw : ¬ i.writesFlags = true := by
    rcases hmem with rfl | rfl | rfl | rfl | rfl <;> simp [Instr.writesFlags]
  have hsta : ¬ ∃ a, i = .sta a := by
    rcases hmem with rfl | rfl | rfl | rfl | rfl <;> simp
  obtain ⟨hac, hn, hz⟩ := exec_flags_of_not_writesFlags h hw
  refine ⟨hac, hn, hz, exec_fault h, fun b => by rw [exec_mem_of_ne_sta h hsta], ?_, exec_run_of_ne_hlt h⟩
  rintro (rfl | rfl) <;> exact exec_pc_of_not_jumpTaken h (by simp [jumpTaken])

/-- Settles O48: a field of the word is a case of RUN or of FAULT. -/
theorem statusWordFields : Obligations.StatusWordFields := by
  intro c s
  refine ⟨?_, ?_, ?_⟩
  · cases hrun : s.run <;> simp [statusWord, hrun]
  · intro hf
    simp [statusWord, hf]
  · intro a o hf
    simp [statusWord, hf]

end Sys2Proof.Machine
end

section
/-! SUPPORT. The memory accesses of a step (R63, R156), told for each of the three cases of a step, and what they do to
memory. -/

namespace Sys2Proof.Machine

/-! ## The data access of an instruction -/

/-- The data access reads AC alone of the state, which neither the start of a step nor the PC advance writes. -/
theorem dataAccesses_past_fetch (i : Instr) (s : State) (v : Byte) :
    dataAccesses i ((startStep s).setPc v) = dataAccesses i s := by
  cases i <;> rfl

/-- Memory after `exec` is memory before it with the data access applied (R61, R62). -/
theorem exec_mem_eq_foldl_dataAccesses {i : Instr} {s u : State} (h : exec i s = .next u) :
    u.mem = (dataAccesses i s).foldl Access.apply s.mem := by
  cases i with
  | sta a => cases h; rfl
  | nop | lda | add | or | and | not | jmp | jn | jz | hlt => exact exec_mem_of_ne_sta h (by simp)

/-! ## The accesses of a step -/

/-- The operand read, if the instruction has an operand (R145). -/
def operandAccesses (i : Instr) (s : State) : List Access :=
  (operandOf i).toList.map fun _ => .read (s.pc + 1)

theorem foldl_operandAccesses (i : Instr) (s : State) (m : Memory) :
    (operandAccesses i s).foldl Access.apply m = m := by
  rw [operandAccesses]
  cases operandOf i <;> rfl

theorem stepAccesses_faulted {s : State} (hf : s.fault ≠ .none) : stepAccesses s = [] := by
  cases hs : s.fault with
  | none => exact absurd hs hf
  | decodeFault a o => simp [stepAccesses, hs]

theorem stepAccesses_illegal {s : State} (hf : s.fault = .none) (h : illegalOpcode (s.mem.read s.pc) = true) :
    stepAccesses s = [.read s.pc] := by
  have hfront := frontEnd_illegal (s := startStep s) h
  simp only [stepAccesses, hf, hfront]

theorem stepAccesses_of_runsTo {s u : State} {i : Instr} (hf : s.fault = .none) (hr : runsTo s i u) :
    stepAccesses s = .read s.pc :: operandAccesses i s ++ dataAccesses i s := by
  obtain ⟨⟨rest, hd⟩, -⟩ := hr
  have hfront := frontEnd_ready (s := startStep s) hd
  simp only [stepAccesses, hf, hfront, startStep_pc, dataAccesses_past_fetch]
  rfl

/-! ## The accesses by the nibble that is fetched -/

theorem runsTo_of_fetchesLegal {s : State} (hl : s.fetchesLegal) : ∃ i u, runsTo s i u := by
  rcases step_cases s with ⟨a, o, hf, _⟩ | ⟨_, hi, _⟩ | ⟨_, _, i, rest, u, hd, hu, _⟩
  · exact absurd hl.1 (by simp [hf])
  · exact absurd hi (by simp [hl.2])
  · exact ⟨i, u, ⟨rest, hd⟩, hu⟩

/-- A legal nibble names an instruction, which fixes the accesses; its operand, if it has one, is the byte after PC. -/
theorem stepAccesses_of_fetches {s : State} {op : Nat} (h : s.fetches op) (hop : op ∉ [0x7, 0xB, 0xC, 0xD, 0xE]) :
    ∃ i, (opcodeByteOf i).toNat / 16 = op ∧ (∀ a, operandOf i = some a → a = s.operand) ∧
      stepAccesses s = .read s.pc :: operandAccesses i s ++ dataAccesses i s := by
  have hl := h.legal hop
  obtain ⟨i, u, hr⟩ := runsTo_of_fetchesLegal hl
  exact ⟨i, (fetches_iff_of_runsTo hl hr).1 h, fun _ => operand_of_runsTo hr, stepAccesses_of_runsTo hl.1 hr⟩

/-- NOP, NOT and HLT. -/
theorem stepAccesses_of_fetches_noOperand {s : State} {op : Nat} (h : s.fetches op) (hop : op ∈ [0x0, 0x6, 0xF]) :
    stepAccesses s = [.read s.pc] := by
  obtain ⟨i, rfl, -, hacc⟩ := stepAccesses_of_fetches h (by
    simp only [List.mem_cons, List.not_mem_nil, or_false] at hop ⊢; omega)
  cases i with
  | nop | not | hlt => exact hacc
  | sta | lda | add | or | and | jmp | jn | jz => simp [opcodeByteOf] at hop

/-- JMP, JN and JZ. -/
theorem stepAccesses_of_fetches_jump {s : State} {op : Nat} (h : s.fetches op) (hop : op ∈ [0x8, 0x9, 0xA]) :
    stepAccesses s = [.read s.pc, .read (s.pc + 1)] := by
  obtain ⟨i, rfl, -, hacc⟩ := stepAccesses_of_fetches h (by
    simp only [List.mem_cons, List.not_mem_nil, or_false] at hop ⊢; omega)
  cases i with
  | jmp | jn | jz => exact hacc
  | nop | sta | lda | add | or | and | not | hlt => simp [opcodeByteOf] at hop

/-- LDA, ADD, OR and AND. -/
theorem stepAccesses_of_fetches_reader {s : State} {op : Nat} (h : s.fetches op) (hop : op ∈ [0x2, 0x3, 0x4, 0x5]) :
    stepAccesses s = [.read s.pc, .read (s.pc + 1), .read s.operand] := by
  obtain ⟨i, rfl, hopr, hacc⟩ := stepAccesses_of_fetches h (by
    simp only [List.mem_cons, List.not_mem_nil, or_false] at hop ⊢; omega)
  cases i with
  | lda | add | or | and => rw [← hopr _ rfl]; exact hacc
  | nop | sta | not | jmp | jn | jz | hlt => simp [opcodeByteOf] at hop

theorem stepAccesses_of_fetches_sta {s : State} (h : s.fetches 0x1) :
    stepAccesses s = [.read s.pc, .read (s.pc + 1), .write s.operand s.ac] := by
  obtain ⟨i, hi, hopr, hacc⟩ := stepAccesses_of_fetches h (by decide)
  obtain ⟨a, rfl⟩ := i.isSta_iff_nibble.2 hi
  rw [← hopr _ rfl]
  exact hacc

/-! ## PC after STA -/

theorem step_pc_of_sta {s t : State} (hs : s.fetches 0x1) (h : step s = .next t) : t.pc = s.pc + 2 := by
  have hl := hs.legal (by decide)
  obtain ⟨i, u, hr, rfl⟩ := next_of_fetchesLegal hl h
  obtain ⟨a, rfl⟩ := i.isSta_iff_nibble.2 ((fetches_iff_of_runsTo hl hr).1 hs)
  rw [endStep_pc, exec_pc_of_not_jumpTaken hr.2 (by simp [jumpTaken])]
  rfl

end Sys2Proof.Machine
end

section
/-! The statements of the family `20_memory.md`, settled. -/

namespace Sys2Proof.Machine

/-- Settles O33: the address read is the one written, or another. -/
theorem writeChangesOneCell : Obligations.WriteChangesOneCell := by
  intro m a v b
  rcases m.read_write_cases a b v with ⟨hb, hread⟩ | ⟨hb, hread⟩
  · rw [hread, if_pos hb]
  · rw [hread, if_neg hb]

/-- Settles O34: the 256 cells are all that a canonical memory holds. -/
theorem sameCellsSameMemory : Obligations.SameCellsSameMemory := by
  intro m m' h h' hcells
  have hread : ∀ a ∈ Memory.addresses, m.read a = m'.read a := List.map_inj_left.1 hcells
  exact Memory.ext_read h h' fun a => hread a (Memory.mem_addresses a)

/-- Settles O35: STA leaves PC at the cell it wrote. -/
theorem storeIsSeenByNextFetch : Obligations.StoreIsSeenByNextFetch := by
  intro s t hs hopr h
  rw [step_mem_of_sta hs h, step_pc_of_sta hs h, hopr, writeChangesOneCell, if_pos rfl]

/-- Settles O36, by the nibble of the opcode byte. -/
theorem accessesOfStep : Obligations.AccessesOfStep := by
  intro s
  refine ⟨?_, ?_, ?_, stepAccesses_of_fetches_sta, stepAccesses_illegal⟩
  · rintro (h | h | h) <;> exact stepAccesses_of_fetches_noOperand h (by decide)
  · rintro (h | h | h) <;> exact stepAccesses_of_fetches_jump h (by decide)
  · rintro (h | h | h | h) <;> exact stepAccesses_of_fetches_reader h (by decide)

/-- Settles O37, by the three cases of a step; the fetches are reads, and `exec` applies the data access. -/
theorem memoryIsItsWrites : Obligations.MemoryIsItsWrites := by
  intro s t h
  rcases next_cases h with ⟨hf, rfl⟩ | ⟨hf, hop, rfl⟩ | ⟨hl, i, u, hr, rfl⟩
  · rw [stepAccesses_faulted hf]; rfl
  · rw [stepAccesses_illegal hf hop]; rfl
  · have hmem : u.mem = (dataAccesses i s).foldl Access.apply s.mem := by
      simpa [dataAccesses_past_fetch] using exec_mem_eq_foldl_dataAccesses hr.2
    rw [endStep_mem, hmem, stepAccesses_of_runsTo hl.1 hr, List.foldl_append, List.foldl_cons,
      foldl_operandAccesses]
    rfl

end Sys2Proof.Machine
end

section
/-! SUPPORT. The encoding: decode and encode over all instructions, the legal and the illegal opcode bytes, the low
nibble, and the look-up by mnemonic. -/

namespace Sys2Proof

/-! ## Decode after encode, encode after decode -/

theorem Instr.wellFormed_eq (i : Instr) : i.wellFormed = true := by
  cases i <;> rfl

/-- The round trips of all instructions together. -/
theorem decode_encode (i : Instr) : Laws.RoundTrip.Statement i := by
  cases i with
  | nop => exact Laws.RoundTrip.nop
  | sta a => exact Laws.RoundTrip.sta a
  | lda a => exact Laws.RoundTrip.lda a
  | add a => exact Laws.RoundTrip.add a
  | or a => exact Laws.RoundTrip.or a
  | and a => exact Laws.RoundTrip.and a
  | not => exact Laws.RoundTrip.not
  | jmp a => exact Laws.RoundTrip.jmp a
  | jn a => exact Laws.RoundTrip.jn a
  | jz a => exact Laws.RoundTrip.jz a
  | hlt => exact Laws.RoundTrip.hlt

/-- The encodings of all instructions are canonical words. -/
theorem canonicalWord_encode (i : Instr) : Laws.Canonical.Statement i := by
  cases i with
  | nop => exact Laws.Canonical.nop
  | sta a => exact Laws.Canonical.sta a
  | lda a => exact Laws.Canonical.lda a
  | add a => exact Laws.Canonical.add a
  | or a => exact Laws.Canonical.or a
  | and a => exact Laws.Canonical.and a
  | not => exact Laws.Canonical.not
  | jmp a => exact Laws.Canonical.jmp a
  | jn a => exact Laws.Canonical.jn a
  | jz a => exact Laws.Canonical.jz a
  | hlt => exact Laws.Canonical.hlt

theorem exists_lookupByOpcode {b : Byte} (h : ¬ illegalOpcode b = true) : ∃ e, lookupByOpcode b = some e :=
  Option.ne_none_iff_exists'.1 (mt lookupByOpcode_eq_none.1 h)

theorem and_highNibble_of_lowNibbleZero {b : Byte} (h : lowNibbleZero b = true) : b &&& 0xF0 = b := by
  revert b; decide

/-- A legal opcode byte with low nibble 0 begins the encoding of its entry's instruction, with any operand byte. -/
theorem exists_encode_of_opcode {b : Byte} (hlegal : ¬ illegalOpcode b = true) (hlow : lowNibbleZero b = true)
    (o : Byte) : ∃ i, encode i = if oneByteOpcode b then [b] else [b, o] := by
  obtain ⟨e, he⟩ := exists_lookupByOpcode hlegal
  exact ⟨instrOf e.mnemonic o, by rw [encode_of_lookupByOpcode he, and_highNibble_of_lowNibbleZero hlow]⟩

/-- The operand byte that the one-byte case asks for is free, since `encode` drops it there. -/
theorem exists_encode_of_canonicalWord {w : List Byte} (h : canonicalWord w = true) : ∃ i, encode i = w := by
  match w, h with
  | [b], h =>
    simp only [canonicalWord, Bool.and_eq_true, Bool.not_eq_true', ← Bool.not_eq_true] at h
    obtain ⟨⟨hlegal, hlow⟩, hone⟩ := h
    simpa only [if_pos hone] using exists_encode_of_opcode hlegal hlow 0
  | [b, o], h =>
    simp only [canonicalWord, Bool.and_eq_true, Bool.not_eq_true', ← Bool.not_eq_true] at h
    obtain ⟨⟨hlegal, hlow⟩, hone⟩ := h
    simpa only [if_neg hone] using exists_encode_of_opcode hlegal hlow o

/-! ## Opcode bytes -/

theorem illegalOpcode_iff_range (b : Byte) :
    illegalOpcode b = true ↔ (0x70 ≤ b.toNat ∧ b.toNat ≤ 0x7F) ∨ (0xB0 ≤ b.toNat ∧ b.toNat ≤ 0xEF) := by
  simp [illegalOpcode]

theorem decode_legal {b : Byte} (o : Byte) (rest : List Byte) (h : ¬ illegalOpcode b = true) :
    ∃ i rest', decode (b :: o :: rest) = .ok i rest' := by
  obtain ⟨e, he⟩ := exists_lookupByOpcode h
  rcases sound_of_romEntry he with ⟨hcount, -⟩ | ⟨hcount, -⟩
  · exact ⟨_, _, decode_noOperand (o :: rest) he hcount⟩
  · exact ⟨_, _, decode_operand rest he hcount⟩

theorem opcodeNibble_append (op low : Nibble) : opcodeNibble (op ++ low) = op :=
  BitVec.extractLsb'_append_eq_left

/-- Of byte 0, the instruction depends on the selected entry alone. -/
theorem decode_instr?_of_lookupByOpcode {b b' : Byte} (h : lookupByOpcode b = lookupByOpcode b') (rest : List Byte) :
    (decode (b :: rest)).instr? = (decode (b' :: rest)).instr? := by
  cases he : lookupByOpcode b' with
  | none =>
    rw [decode_illegal rest (lookupByOpcode_eq_none.1 (h.trans he)), decode_illegal rest (lookupByOpcode_eq_none.1 he)]
    rfl
  | some e =>
    rcases sound_of_romEntry he with ⟨hcount, -⟩ | ⟨hcount, -⟩
    · rw [decode_noOperand rest (h.trans he) hcount, decode_noOperand rest he hcount]
    · cases rest with
      | nil => simp [decode, h, he, hcount, Decoded.instr?]
      | cons o rest => rw [decode_operand rest (h.trans he) hcount, decode_operand rest he hcount]

/-! ## The look-up by mnemonic -/

/-- No two entries of the ROM share a spelling. -/
theorem eq_of_spelling_eq {e e' : RomEntry} (he : some e ∈ rom) (he' : some e' ∈ rom)
    (h : spelling e.mnemonic = spelling e'.mnemonic) : e = e' := by
  have table : ∀ x ∈ rom.filterMap id, ∀ y ∈ rom.filterMap id,
      spelling x.mnemonic = spelling y.mnemonic → x = y := by decide
  exact table e (by simpa using he) e' (by simpa using he') h

theorem of_lookupByMnemonic {name : List Char} {e : RomEntry} (h : lookupByMnemonic name = some e) :
    some e ∈ rom ∧ spelling e.mnemonic = name.map lowerChar :=
  ⟨by simpa using List.mem_of_find?_eq_some h, by simpa using List.find?_some h⟩

theorem exists_lookupByMnemonic {name : List Char} {e : RomEntry} (he : some e ∈ rom)
    (hs : spelling e.mnemonic = name.map lowerChar) : ∃ e', lookupByMnemonic name = some e' := by
  rw [← Option.isSome_iff_exists, lookupByMnemonic, List.find?_isSome]
  exact ⟨e, by simpa using he, by simpa using hs⟩

/-- The entry of an instruction's mnemonic holds its opcode byte and its operand count (R95). -/
theorem lookupByMnemonic_spelling (i : Instr) : ∃ e, lookupByMnemonic (spelling (Machine.mnemonicOf i)) = some e ∧
    e.opcodeByte = opcodeByteOf i ∧ e.operandCount = (operandOf i).toList.length := by
  cases i <;> exact ⟨_, rfl, rfl, rfl⟩

end Sys2Proof
end

section
/-! SUPPORT. The two passes of the assembler: what a line that fits does to the cursors and to the staging image. Every
emission is a list of bytes, written from the cursor on. -/

namespace Sys2Proof.Machine

/-! ## Emission -/

theorem emitByte_of_lt {p : Pass2} (v : Byte) (h : p.cursor < 256) :
    emitByte p v = { p with cursor := p.cursor + 1, image := p.image.write (BitVec.ofNat 8 p.cursor) v } :=
  if_pos h

/-- Bytes that fit are written from the cursor on, which moves past them, and no diagnostic is added (R123). -/
theorem foldl_emitByte {p : Pass2} {vs : List Byte} (h : p.cursor + vs.length ≤ 256) :
    vs.foldl emitByte p =
      { p with cursor := p.cursor + vs.length, image := writeCells p.cursor vs p.image } := by
  induction vs generalizing p with
  | nil => rfl
  | cons v vs ih =>
    rw [List.length_cons] at h
    have hlt : p.cursor < 256 := by omega
    rw [List.foldl_cons, emitByte_of_lt v hlt, ih (by simp only; omega), writeCells, if_pos hlt, List.length_cons,
      Nat.add_assoc, Nat.add_comm 1]

theorem emitWord_eq (p : Pass2) (v : Nat) :
    emitWord p v = [BitVec.ofNat 8 (v / 256), BitVec.ofNat 8 v].foldl emitByte p := rfl

theorem repeatEmit_emitByte (v : Byte) (n : Nat) (p : Pass2) :
    repeatEmit (fun q => emitByte q v) n p = (List.replicate n v).foldl emitByte p := by
  induction n generalizing p with
  | zero => rfl
  | succ n ih => exact ih (emitByte p v)

/-! ## Literals -/

theorem literal_of_le {t : Token} {bound v : Nat} (h : parseDecimal t = some v) (hv : v ≤ bound) :
    literal bound t = some v := by
  simp [literal, h, hv]

theorem parseDecimal_eq_some {t : Token} {v : Nat} :
    parseDecimal t = some v ↔
      (t ≠ [] ∧ ∀ c ∈ t, c.isDigit = true) ∧ t.foldl (fun n c => n * 10 + (c.toNat - 48)) 0 = v := by
  simp [parseDecimal]

/-- A digit at the end of a number. -/
theorem parseDecimal_append_digit {t : Token} {v d : Nat} (h : parseDecimal t = some v) (hd : d < 10) :
    parseDecimal (t ++ [Char.ofNat (48 + d)]) = some (v * 10 + d) := by
  have digit : ∀ d < 10, (Char.ofNat (48 + d)).isDigit = true ∧ (Char.ofNat (48 + d)).toNat - 48 = d := by decide
  obtain ⟨hdigit, hvalue⟩ := digit d hd
  obtain ⟨⟨-, hall⟩, rfl⟩ := parseDecimal_eq_some.1 h
  refine parseDecimal_eq_some.2 ⟨⟨by simp, ?_⟩, by simp [hvalue]⟩
  simpa [or_imp, forall_and, hdigit] using hall

theorem parseDecimal_digit {d : Nat} (hd : d < 10) : parseDecimal [Char.ofNat (48 + d)] = some d := by
  revert d; decide

/-- Enough fuel writes the whole number, before what was there. -/
theorem decimalDigits_eq_append {fuel n : Nat} (h : n < fuel) (acc : List Char) :
    ∃ t, decimalDigits fuel n acc = t ++ acc ∧ parseDecimal t = some n := by
  induction fuel generalizing n acc with
  | zero => omega
  | succ fuel ih =>
    by_cases hn : n < 10
    · refine ⟨[Char.ofNat (48 + n)], ?_, parseDecimal_digit hn⟩
      simp [decimalDigits, hn, Nat.mod_eq_of_lt hn]
    · obtain ⟨t, ht, hv⟩ := ih (show n / 10 < fuel by omega) (Char.ofNat (48 + n % 10) :: acc)
      refine ⟨t ++ [Char.ofNat (48 + n % 10)], by simp [decimalDigits, hn, ht], ?_⟩
      rw [parseDecimal_append_digit hv (Nat.mod_lt n (by omega)), Nat.div_add_mod']

/-- What substitution writes reads back (R113, R122). -/
theorem parseDecimal_decimal (n : Nat) : parseDecimal (decimal n) = some n := by
  obtain ⟨t, ht, hv⟩ := decimalDigits_eq_append (Nat.lt_succ_self n) []
  rw [decimal, ht, List.append_nil, hv]

/-! ## Lines of pass 2 -/

theorem pass2Line_dw {t : Token} {v : Nat} (p : Pass2) (h : parseDecimal t = some v) (hv : v ≤ 65535) :
    pass2Line p (.dw [t]) = [BitVec.ofNat 8 (v / 256), BitVec.ofNat 8 v].foldl emitByte p := by
  simp only [pass2Line, emitValue, literal_of_le h hv, emitWord_eq]

theorem pass2Line_dab {t w : Token} {n v : Nat} (p : Pass2) (ht : parseRepeat t = some (n, w))
    (hw : parseDecimal w = some v) (hv : v ≤ 255) :
    pass2Line p (.dab [t]) = (List.replicate n (BitVec.ofNat 8 v)).foldl emitByte p := by
  simp only [pass2Line, emitRepeat, repeatArgument, ht, literal_of_le hw hv, repeatEmit_emitByte]

end Sys2Proof.Machine
end

section
/-! SUPPORT. The assembly of a listing: its lines, their tokens, and what both passes make of them. -/

namespace Sys2Proof.Machine

/-! ## Preprocessing -/

/-- Kept by preprocessing inside a token: no white space, so no line end, no comment, not folded (R110). -/
def plainChar (c : Char) : Bool := !c.isWhitespace && c != ';' && lowerChar c == c

theorem splitLines_append_newline {l : List Char} (h : ∀ c ∈ l, c ≠ '\n') (rest : List Char) :
    splitLines (l ++ '\n' :: rest) = l :: splitLines rest := by
  induction l with
  | nil => rfl
  | cons c l ih =>
    have hc : c ≠ '\n' := h c (by simp)
    rw [List.cons_append, splitLines, if_neg hc, ih fun d hd => h d (by simp [hd])]

/-- The characters of a token are collected, reversed. -/
theorem splitTokens_append {t : Token} (h : ∀ c ∈ t, c.isWhitespace = false) (rest : List Char) (cur : Token) :
    splitTokens (t ++ rest) cur = splitTokens rest (t.reverse ++ cur) := by
  induction t generalizing cur with
  | nil => rfl
  | cons c t ih =>
    have hc : ¬ c.isWhitespace = true := by simp [h c (by simp)]
    rw [List.cons_append, splitTokens, if_neg hc, ih fun d hd => h d (by simp [hd])]
    simp

theorem splitTokens_singleton {t : Token} (h : ∀ c ∈ t, c.isWhitespace = false) (hne : t ≠ []) :
    splitTokens t [] = [t] := by
  have hsplit := splitTokens_append h [] []
  simpa [splitTokens, hne] using hsplit

theorem splitTokens_append_space {t : Token} (h : ∀ c ∈ t, c.isWhitespace = false) (hne : t ≠ []) (rest : List Char) :
    splitTokens (t ++ ' ' :: rest) [] = t :: splitTokens rest [] := by
  have hspace : ' '.isWhitespace = true := by decide
  rw [splitTokens_append h]
  simp [splitTokens, hspace, hne]

/-! ## The tokens of an instruction -/

/-- The tokens that the source line of `i` stands for. -/
def instrTokens (i : Instr) : List Token :=
  spelling (mnemonicOf i) :: (operandOf i).toList.map fun a => decimal a.toNat

theorem plainChar_of_mem_spelling {m : Mnemonic} {c : Char} (h : c ∈ spelling m) : plainChar c = true := by
  have table : (spelling m).all plainChar = true := by cases m <;> decide
  exact List.all_eq_true.1 table c h

theorem plainChar_of_isDigit {c : Char} (h : c.isDigit = true) : plainChar c = true := by
  have ne_of (d : Char) (hd : d.isDigit = false) : c ≠ d := by
    rintro rfl
    rw [h] at hd
    cases hd
  have hupper : ¬ ('A' ≤ c ∧ c ≤ 'Z') := by
    simp only [Char.isDigit, Bool.and_eq_true, decide_eq_true_eq] at h
    exact fun ⟨hA, _⟩ => absurd (Char.le_trans hA h.2) (by decide)
  simp [plainChar, Char.isWhitespace, lowerChar, hupper, ne_of]

theorem plainChar_of_mem_decimal {n : Nat} {c : Char} (h : c ∈ decimal n) : plainChar c = true := by
  obtain ⟨⟨-, hall⟩, -⟩ := parseDecimal_eq_some.1 (parseDecimal_decimal n)
  exact plainChar_of_isDigit (hall c h)

/-- What preprocessing does not touch. -/
theorem of_plainChar {c : Char} (h : plainChar c = true) :
    c.isWhitespace = false ∧ c ≠ '\n' ∧ c ≠ ';' ∧ lowerChar c = c := by
  simp only [plainChar, Bool.and_eq_true, Bool.not_eq_true', bne_iff_ne, beq_iff_eq] at h
  obtain ⟨⟨hspace, hcomment⟩, hlower⟩ := h
  refine ⟨hspace, ?_, hcomment, hlower⟩
  rintro rfl
  cases hspace

theorem isWhitespace_of_mem_spelling {m : Mnemonic} {c : Char} (h : c ∈ spelling m) : c.isWhitespace = false :=
  (of_plainChar (plainChar_of_mem_spelling h)).1

theorem isWhitespace_of_mem_decimal {n : Nat} {c : Char} (h : c ∈ decimal n) : c.isWhitespace = false :=
  (of_plainChar (plainChar_of_mem_decimal h)).1

theorem spelling_ne_nil (m : Mnemonic) : spelling m ≠ [] := by
  cases m <;> decide

theorem decimal_ne_nil (n : Nat) : decimal n ≠ [] := by
  obtain ⟨⟨hne, -⟩, -⟩ := parseDecimal_eq_some.1 (parseDecimal_decimal n)
  exact hne

theorem instrText_of_none {i : Instr} (h : operandOf i = none) : instrText i = spelling (mnemonicOf i) := by
  simp [instrText, h]

theorem instrText_of_some {i : Instr} {a : Byte} (h : operandOf i = some a) :
    instrText i = spelling (mnemonicOf i) ++ ' ' :: decimal a.toNat := by
  simp [instrText, h]

theorem of_mem_instrText {i : Instr} {c : Char} (h : c ∈ instrText i) : c ≠ '\n' ∧ c ≠ ';' ∧ lowerChar c = c := by
  have hspelling (hc : c ∈ spelling (mnemonicOf i)) := (of_plainChar (plainChar_of_mem_spelling hc)).2
  cases hop : operandOf i with
  | none =>
    rw [instrText_of_none hop] at h
    exact hspelling h
  | some a =>
    rw [instrText_of_some hop, List.mem_append, List.mem_cons] at h
    rcases h with hc | rfl | hc
    · exact hspelling hc
    · decide
    · exact (of_plainChar (plainChar_of_mem_decimal hc)).2

theorem lineTokens_of_untouched {l : List Char} (h : ∀ c ∈ l, c ≠ ';' ∧ lowerChar c = c) :
    lineTokens l = splitTokens l [] := by
  have htake : l.takeWhile (· ≠ ';') = l := List.takeWhile_eq_self_iff.2 fun c hc => by simp [(h c hc).1]
  have hmap : l.map lowerChar = l := by
    rw [List.map_congr_left fun c hc => (h c hc).2, List.map_id']
  rw [lineTokens, htake, hmap]

theorem lineTokens_instrText (i : Instr) : lineTokens (instrText i) = instrTokens i := by
  rw [lineTokens_of_untouched fun c hc => (of_mem_instrText hc).2, instrTokens]
  have hname := spelling_ne_nil (mnemonicOf i)
  cases hop : operandOf i with
  | none =>
    rw [instrText_of_none hop, splitTokens_singleton (fun _ => isWhitespace_of_mem_spelling) hname]
    rfl
  | some a =>
    rw [instrText_of_some hop, splitTokens_append_space (fun _ => isWhitespace_of_mem_spelling) hname,
      splitTokens_singleton (fun _ => isWhitespace_of_mem_decimal) (decimal_ne_nil _)]
    rfl

theorem preprocess_listing (is : List Instr) : preprocess (listing is) = is.map instrTokens := by
  induction is with
  | nil => decide
  | cons i is ih =>
    have hlisting : listing (i :: is) = instrText i ++ '\n' :: listing is := by simp [listing]
    rw [hlisting, preprocess, splitLines_append_newline fun c hc => (of_mem_instrText hc).1, List.map_cons,
      lineTokens_instrText, List.filter_cons_of_pos (by simp [instrTokens]), List.map_cons, ← ih, preprocess]

/-! ## The line of an instruction -/

/-- The parsed line of `i`: no label, the mnemonic, and the operand in decimal (R112). -/
def instrLine (i : Instr) : SourceLine :=
  ⟨none, .instr (spelling (mnemonicOf i)) ((operandOf i).toList.map fun a => decimal a.toNat)⟩

/-- No mnemonic is read as a label or as a directive. -/
theorem parseLine_instrTokens (i : Instr) : parseLine (instrTokens i) = instrLine i := by
  have hlabel : (spelling (mnemonicOf i)).getLast? ≠ some ':' := by cases mnemonicOf i <;> decide
  have hdirective : directive (spelling (mnemonicOf i)) = none := by cases mnemonicOf i <;> rfl
  simp only [instrTokens, parseLine, if_neg hlabel, classify, hdirective, instrLine]

theorem pass1Line_instrLine (p : Pass1) (i : Instr) : pass1Line p (instrLine i) = p.skip (encode i).length := by
  obtain ⟨e, he, -, hcount⟩ := lookupByMnemonic_spelling i
  simp only [pass1Line, instrLine, bindLabel, sizeBody, he, hcount, encode_eq_cons, List.length_cons, Nat.add_comm 1]

theorem pass2Line_instrLine (p : Pass2) (i : Instr) :
    pass2Line p (substBody [] (instrLine i).body) = (encode i).foldl emitByte p := by
  obtain ⟨e, he, hbyte, hcount⟩ := lookupByMnemonic_spelling i
  rw [encode_eq_cons, ← hbyte]
  cases hop : operandOf i with
  | none => simp [instrLine, substBody, pass2Line, emitInstr, he, hcount, hop]
  | some a =>
    have hlit : literal 255 (decimal a.toNat) = some a.toNat :=
      literal_of_le (parseDecimal_decimal _) (Nat.le_of_lt_succ a.isLt)
    simp [instrLine, substBody, substToken, pass2Line, emitInstr, he, hcount, hop, hlit]

/-! ## The two passes -/

theorem foldl_pass1Line (is : List Instr) (p : Pass1) :
    (is.map instrLine).foldl pass1Line p = p.skip (is.flatMap encode).length := by
  induction is generalizing p with
  | nil => rfl
  | cons i is ih =>
    rw [List.map_cons, List.foldl_cons, pass1Line_instrLine, ih, List.flatMap_cons, List.length_append]
    simp [Pass1.skip, Nat.add_assoc]

theorem foldl_pass2Line (is : List Instr) (p : Pass2) :
    (is.map instrLine).foldl (fun p l => pass2Line p (substBody [] l.body)) p =
      (is.flatMap encode).foldl emitByte p := by
  simp only [List.foldl_map, List.foldl_flatMap, pass2Line_instrLine]

/-- Both passes over the lines of instructions that fit. -/
theorem assemble_listing {is : List Instr} (h : (is.flatMap encode).length ≤ 256) :
    assemble (listing is) = ⟨true, [], writeCells 0 (is.flatMap encode) []⟩ := by
  have hlines : (preprocess (listing is)).map parseLine = is.map instrLine := by
    simp [preprocess_listing, parseLine_instrTokens]
  have hfit : (⟨0, [], []⟩ : Pass2).cursor + (is.flatMap encode).length ≤ 256 := by simpa using h
  rw [assemble, hlines, assembleLines]
  simp only [foldl_pass1Line, Pass1.skip, foldl_pass2Line, foldl_emitByte hfit]
  rfl

end Sys2Proof.Machine
end

section
/-! The statements of the family `30_encoding.md`, settled. -/

namespace Sys2Proof.Machine

/-- Settles O2: a canonical word is an encoding, and an encoding decodes back whatever follows it. -/
theorem decodeAndEncodeAreInverse : Obligations.DecodeAndEncodeAreInverse := by
  refine ⟨fun i rest _ => decode_encode i rest, ?_, fun i _ => canonicalWord_encode i⟩
  intro w hw
  obtain ⟨i, rfl⟩ := exists_encode_of_canonicalWord hw
  exact ⟨i, i.wellFormed_eq, by simpa using decode_encode i [], rfl⟩

/-- Settles O3: the ranges are those of `illegalOpcode`, which says where the ROM has no entry. -/
theorem illegalEncodings : Obligations.IllegalEncodings := by
  simp only [Obligations.IllegalEncodings, ← illegalOpcode_iff_range]
  refine ⟨fun b rest => decode_illegal rest, fun b o rest => decode_legal o rest, by decide, ?_⟩
  intro s hf hop
  exact ⟨_, step_illegal hf hop, rfl⟩

/-- Settles O4: both bytes select the entry of the nibble. -/
theorem lowNibbleIsIgnored : Obligations.LowNibbleIsIgnored := by
  intro op x y rest
  refine decode_instr?_of_lookupByOpcode ?_ rest
  rw [lookupByOpcode, lookupByOpcode, opcodeNibble_append, opcodeNibble_append]

/-- Settles O5: the look-up finds some entry spelled so, and there is no other. -/
theorem mnemonicLookupIsExact : Obligations.MnemonicLookupIsExact := by
  refine fun name e => ⟨of_lookupByMnemonic, ?_⟩
  rintro ⟨he, hs⟩
  obtain ⟨e', hfound⟩ := exists_lookupByMnemonic he hs
  obtain ⟨he', hs'⟩ := of_lookupByMnemonic hfound
  rw [hfound, eq_of_spelling_eq he' he (hs'.trans hs.symm)]

/-- Settles O39: the entry is that of the instruction's nibble, and its columns compute to the meaning. -/
theorem controlColumnsDriveTheMeanings : Obligations.ControlColumnsDriveTheMeanings := by
  intro i opr s
  cases i with
  | nop => exact ⟨_, Laws.lookup_canonical 0x0, rfl⟩
  | sta a => exact ⟨_, Laws.lookup_canonical 0x1, rfl⟩
  | lda a => exact ⟨_, Laws.lookup_canonical 0x2, rfl⟩
  | add a => exact ⟨_, Laws.lookup_canonical 0x3, rfl⟩
  | or a => exact ⟨_, Laws.lookup_canonical 0x4, rfl⟩
  | and a => exact ⟨_, Laws.lookup_canonical 0x5, rfl⟩
  | not => exact ⟨_, Laws.lookup_canonical 0x6, rfl⟩
  | jmp a => exact ⟨_, Laws.lookup_canonical 0x8, rfl⟩
  | jn a => exact ⟨_, Laws.lookup_canonical 0x9, rfl⟩
  | jz a => exact ⟨_, Laws.lookup_canonical 0xA, rfl⟩
  | hlt => exact ⟨_, Laws.lookup_canonical 0xF, rfl⟩

/-- Settles O50: each line emits its instruction's bytes, so the image holds all of them in order. -/
theorem assembledListingIsItsEncoding : Obligations.AssembledListingIsItsEncoding := by
  intro is s h
  have hasm := assemble_listing h
  have hcommit : (commitAssembly (listing is) s).1 = { s with mem := writeCells 0 (is.flatMap encode) [] } := by
    simp [commitAssembly, hasm]
  rw [hasm, hcommit]
  refine ⟨rfl, rfl, rfl, fun a => ?_⟩
  rw [lookup_writeCells 0 _ [] a (by simpa using h), if_pos (Nat.zero_le _)]
  rfl

/-- Settles O51: `dw` emits two bytes, the high one first. -/
theorem dwIsBigEndian : Obligations.DwIsBigEndian := by
  intro p q t v ht hv hfit
  have hlen : p.cursor + [BitVec.ofNat 8 (v / 256), BitVec.ofNat 8 v].length ≤ 256 := hfit
  rw [pass2Line_dw p ht hv, foldl_emitByte hlen]
  refine ⟨rfl, rfl, rfl, ?_, ?_, fun b hb hb' => ?_⟩ <;> rw [lookup_writeCells _ _ _ _ hlen]
  · simp [Nat.mod_eq_of_lt (show p.cursor < 256 by omega)]
  · have hlow : BitVec.ofNat 8 (v % 256) = BitVec.ofNat 8 v := by simp [← BitVec.toNat_inj]
    simp [Nat.mod_eq_of_lt hfit, hlow]
  · split
    · rw [List.getElem?_eq_none (by simp; omega), Option.getD_none]
    · rfl

/-- Settles O52: `dab` emits `N` times the byte `V`. -/
theorem dabFillsCells : Obligations.DabFillsCells := by
  intro p q t w n v ht hw hv hfit
  have hlen : p.cursor + (List.replicate n (BitVec.ofNat 8 v)).length ≤ 256 := by simpa using hfit
  rw [pass2Line_dab p ht hw hv, foldl_emitByte hlen]
  refine ⟨by simp, rfl, by simp [sizeBody, repeatArgument, ht, Pass1.skip], fun b => ?_⟩
  rw [lookup_writeCells _ _ _ _ hlen, List.getElem?_replicate]
  by_cases hlo : p.cursor ≤ b.toNat
  · have hcell : b.toNat - p.cursor < n ↔ b.toNat < p.cursor + n := by omega
    by_cases hhi : b.toNat < p.cursor + n <;> simp [hlo, hhi, hcell]
  · simp [hlo]

/-- Settles O53: a label is replaced by what `decimal` writes, which reads back as the number. -/
theorem substitutionIsWholeToken : Obligations.SubstitutionIsWholeToken := by
  intro labels t
  refine ⟨fun a ha => ?_, fun hnone => ?_⟩
  · simp only [substToken, ha, parseDecimal_decimal]
  · simp only [substToken, hnone]

/-- Settles O1, by evaluating the decoder on each of the words. -/
theorem specWordsDecode : Obligations.SpecWordsDecode := by
  unfold Obligations.SpecWordsDecode
  decide

end Sys2Proof.Machine
end

section
/-! SUPPORT. Runs (R153, R154): that a step answers one state, what RUN is after it, and how a run and its cut-off form
go on from there. -/

namespace Sys2Proof.Machine

/-! ## A step -/

/-- Every case of a step is a next state (R149). -/
theorem step_answers (s : State) : ∃ t, step s = .next t := by
  rcases step_cases s with ⟨_, _, _, hs⟩ | ⟨_, _, hs⟩ | ⟨_, _, _, _, _, _, _, hs⟩ <;> exact ⟨_, hs⟩

theorem step_unique {s t u : State} (ht : step s = .next t) (hu : step s = .next u) : t = u :=
  Host.Outcome.next.inj (ht.symm.trans hu)

/-- HLT alone leaves RUN Halted in its own meaning; RUN was Running since the start of the step (R142, R211). -/
theorem run_of_runsTo {s u : State} {i : Instr} (hr : runsTo s i u) :
    u.run = if i = .hlt then .halted else .running := by
  obtain ⟨-, hu⟩ := hr
  by_cases hi : i = .hlt
  · subst hi
    cases hu
    rfl
  · rw [if_neg hi, exec_run_of_ne_hlt hu hi]
    rfl

theorem stepResult_of_runsTo {s u : State} {i : Instr} (hf : s.fault = .none) (hr : runsTo s i u) :
    stepResult s = if i = .hlt then .haltedHlt
      else if 256 ≤ s.pc.toNat + instrLength i then .haltedWrap else .continues := by
  obtain ⟨⟨rest, hd⟩, -⟩ := hr
  exact stepResult_ready hf hd

/-- RUN and the result after a step: an instruction halts by HLT or by a wrap, and a fault halts or finds the engine
halted (R148, R222). -/
theorem run_eq_running_iff {s t : State} (hi : s.faultHolds) (h : step s = .next t) :
    t.run = .running ↔ stepResult s = .continues := by
  rcases step_cases s with ⟨a, o, hf, hs⟩ | ⟨hf, hop, hs⟩ | ⟨hf, _, i, rest, u, hd, hu, hs⟩
  all_goals cases step_unique h hs
  · obtain ⟨hhalted, -, -⟩ := hi a o hf
    simp [hhalted, stepResult_faulted hf]
  · simp [stepResult_illegal hf hop]
  · have hr : runsTo s i u := ⟨⟨rest, hd⟩, hu⟩
    rw [endStep_run, run_of_runsTo hr, stepResult_of_runsTo hf hr]
    by_cases hhlt : i = .hlt
    · simp [hhlt]
    · by_cases hwrap : 256 ≤ s.pc.toNat + instrLength i <;> simp [hhlt, hwrap]

/-! ## A run that returns -/

/-- A run by its first step (R153). -/
theorem runs_iff {s u t : State} {r : StepResult} (h : step s = .next u) :
    Runs s t r ↔
      (stepResult s ≠ .continues ∧ t = u ∧ r = stepResult s) ∨ (stepResult s = .continues ∧ Runs u t r) := by
  constructor
  · rintro (⟨hstep, hr⟩ | ⟨hstep, hr, hrest⟩)
    · exact .inl ⟨hr, step_unique hstep h, rfl⟩
    · rw [step_unique h hstep]
      exact .inr ⟨hr, hrest⟩
  · rintro (⟨hr, rfl, rfl⟩ | ⟨hr, hrest⟩)
    · exact .stop h hr
    · exact .more h hr hrest

/-- The last step of a run answered something other than Continue, so it halted the engine. -/
theorem halted_of_runs {s t : State} {r : StepResult} (hi : s.faultHolds) (h : Runs s t r) :
    t.run = .halted ∧ r ≠ .continues := by
  induction h with
  | @stop s t hstep hr =>
    have hnot : t.run ≠ .running := mt (run_eq_running_iff hi hstep).1 hr
    refine ⟨?_, hr⟩
    cases hrun : t.run with
    | halted => rfl
    | running => exact absurd hrun hnot
  | more hstep _ _ ih => exact ih (step_keeps_faultHolds hi hstep)

theorem runs_unique {s t t' : State} {r r' : StepResult} (h : Runs s t r) (h' : Runs s t' r') :
    t = t' ∧ r = r' := by
  induction h with
  | stop hstep hr =>
    rcases (runs_iff hstep).1 h' with ⟨_, rfl, rfl⟩ | ⟨hcont, _⟩
    · exact ⟨rfl, rfl⟩
    · exact absurd hcont hr
  | more hstep hr _ ih =>
    rcases (runs_iff hstep).1 h' with ⟨hstop, _⟩ | ⟨_, hrest⟩
    · exact absurd hr hstop
    · exact ih hrest

/-! ## A run that does not return -/

/-- Going on for `k + 1` steps, by the first of them. -/
theorem continuesFor_succ_iff {s u : State} (k : Nat) (h : step s = .next u) :
    continuesFor (k + 1) s ↔ stepResult s = .continues ∧ continuesFor k u := by
  refine and_congr_right fun _ => ⟨?_, fun hk => ⟨u, h, hk⟩⟩
  rintro ⟨t, ht, hk⟩
  rwa [step_unique h ht]

theorem not_runsForever_of_runs {s t : State} {r : StepResult} (h : Runs s t r) : ¬ RunsForever s := by
  induction h with
  | stop hstep hr => exact fun hever => hr ((continuesFor_succ_iff 0 hstep).1 (hever 1)).1
  | more hstep _ _ ih => exact fun hever => ih fun k => ((continuesFor_succ_iff k hstep).1 (hever (k + 1))).2

/-- A run that does not go on for `k` steps returns within them. -/
theorem exists_runs_of_not_continuesFor {k : Nat} {s : State} (h : ¬ continuesFor k s) : ∃ t r, Runs s t r := by
  induction k generalizing s with
  | zero => exact absurd trivial h
  | succ k ih =>
    obtain ⟨u, hu⟩ := step_answers s
    by_cases hr : stepResult s = .continues
    · obtain ⟨t, r, hrest⟩ := ih fun hk => h ((continuesFor_succ_iff k hu).2 ⟨hr, hk⟩)
      exact ⟨t, r, .more hu hr hrest⟩
    · exact ⟨u, _, .stop hu hr⟩

/-! ## The run cut off -/

theorem runWithin_succ {s u : State} (k : Nat) (h : step s = .next u) :
    runWithin (k + 1) s = if stepResult s = .continues then runWithin k u else some (u, stepResult s) := by
  simp only [runWithin, h]

theorem exists_runWithin_of_runs {s t : State} {r : StepResult} (h : Runs s t r) :
    ∃ k, runWithin k s = some (t, r) := by
  induction h with
  | stop hstep hr => exact ⟨1, by rw [runWithin_succ 0 hstep, if_neg hr]⟩
  | more hstep hr _ ih =>
    obtain ⟨k, hk⟩ := ih
    exact ⟨k + 1, by rw [runWithin_succ k hstep, if_pos hr, hk]⟩

theorem runs_of_runWithin {k : Nat} {s t : State} {r : StepResult} (h : runWithin k s = some (t, r)) :
    Runs s t r := by
  induction k generalizing s with
  | zero => cases h
  | succ k ih =>
    obtain ⟨u, hu⟩ := step_answers s
    rw [runWithin_succ k hu] at h
    by_cases hr : stepResult s = .continues
    · rw [if_pos hr] at h
      exact .more hu hr (ih h)
    · rw [if_neg hr] at h
      cases h
      exact .stop hu hr

end Sys2Proof.Machine
end

section
/-! The statements of the family `40_execution_engine.md`, settled. -/

namespace Sys2Proof.Machine

/-- Settles O8: a recorded fault, an illegal byte and an instruction each have their next state. -/
theorem everyStepAnswersANextState : Obligations.EveryStepAnswersANextState :=
  step_answers

/-- Settles O9, by the three cases of a step. -/
theorem runningExactlyOnContinue : Obligations.RunningExactlyOnContinue :=
  fun _ _ hi h => run_eq_running_iff hi h

/-- Settles O43: a run by its first step, and RUN and the result at its end by induction over its steps. -/
theorem runRepeatsSteps : Obligations.RunRepeatsSteps := by
  refine ⟨fun s t r => ?_, fun _ _ _ => halted_of_runs, fun _ _ hi h => (run_eq_running_iff hi h).2, ?_⟩
  · obtain ⟨v, hv⟩ := step_answers s
    refine ⟨fun h => ⟨v, hv, (runs_iff hv).1 h⟩, ?_⟩
    rintro ⟨u, hu, hcases⟩
    exact (runs_iff hu).2 hcases
  · intro s t r a o hf
    rw [runs_iff (step_faulted hf), stepResult_faulted hf]
    simp

/-- Settles O44: a run that does not go on for some number of steps returns, and its steps are determined. -/
theorem runReturnsOnceOrNever : Obligations.RunReturnsOnceOrNever := by
  refine fun s => ⟨?_, fun _ _ => not_runsForever_of_runs, fun _ _ _ _ => runs_unique⟩
  by_cases hever : RunsForever s
  · exact .inr hever
  · obtain ⟨k, hk⟩ := not_forall.1 hever
    exact .inl (exists_runs_of_not_continuesFor hk)

/-- Settles O45, by induction over the run and over the number of steps. -/
theorem runWithinFindsTheEnd : Obligations.RunWithinFindsTheEnd :=
  fun _ _ _ => ⟨exists_runWithin_of_runs, fun ⟨_, hk⟩ => runs_of_runWithin hk⟩

/-- Settles O6: the step is `exec` between the start of the step and its end. -/
theorem stepRunsDecodedInstruction : Obligations.StepRunsDecodedInstruction := by
  intro s t i rest hf hd ht
  have hexec : exec i ((startStep s).setPc (s.pc + BitVec.ofNat 8 (instrLength i))) = .next t := ht
  rw [step_ready hf hd, hexec, mapNext_next, endStep, instrLength]
  simp only [decide_eq_true_eq]
  rfl

/-- Settles O7: HLT is looked at before the wrap. -/
theorem stepResultOfInstruction : Obligations.StepResultOfInstruction :=
  fun _ _ _ hf hd => stepResult_ready hf hd

/-- Settles O10: an illegal byte writes RUN, an instruction runs after RUN was set, and neither result reads it. -/
theorem stepIgnoresRunState : Obligations.StepIgnoresRunState := by
  intro s r hf
  rcases step_cases s with ⟨a, o, hfault, _⟩ | ⟨_, hop, _⟩ | ⟨_, _, i, rest, _, hd, _, _⟩
  · rw [hf] at hfault
    cases hfault
  · have hstep := step_illegal (s := s.setRun r) hf hop
    have hresult := stepResult_illegal (s := s.setRun r) hf hop
    exact ⟨hstep.trans (step_illegal hf hop).symm, hresult.trans (stepResult_illegal hf hop).symm⟩
  · have hstep := step_ready (s := s.setRun r) hf hd
    have hresult := stepResult_ready (s := s.setRun r) hf hd
    exact ⟨hstep.trans (step_ready hf hd).symm, hresult.trans (stepResult_ready hf hd).symm⟩

/-- Settles O38: one sum of bytes is the sum of their values in both readings. -/
theorem addIsSignednessFree : Obligations.AddIsSignednessFree := by
  intro a s
  refine ⟨_, exec_add a s, ?_, ?_⟩
  · rw [State.writeResult_ac, BitVec.toNat_add]
    push_cast
    rfl
  · rw [State.writeResult_ac, BitVec.toInt_add]

end Sys2Proof.Machine
end

section
/-! SUPPORT. The step that a fetched nibble names: the bytes at PC decode to the instruction with that nibble and the
operand byte, and the step is `exec` of it, whole. -/

namespace Sys2Proof

theorem opcodeNibble_eq_of_nibble {b b' : Byte} (h : b.toNat / 16 = b'.toNat / 16) :
    opcodeNibble b = opcodeNibble b' := by
  have hnibble : ∀ b : Byte, opcodeNibble b = BitVec.ofNat 4 (b.toNat / 16) := by decide
  rw [hnibble, hnibble, h]

/-- Two bytes that agree with `i` in the opcode nibble and in the operand, if `i` has one, decode to `i` (R92, R93). -/
theorem exists_decode_two_of_nibble {b o : Byte} {i : Instr} (hb : b.toNat / 16 = (opcodeByteOf i).toNat / 16)
    (ho : ∀ a ∈ operandOf i, a = o) : ∃ rest, decode [b, o] = .ok i rest := by
  have hbytes : ∃ rest, encode i ++ rest = [opcodeByteOf i, o] := by
    rw [encode_eq_cons]
    cases ha : operandOf i with
    | none => exact ⟨[o], rfl⟩
    | some a => exact ⟨[], by rw [ho a ha]; rfl⟩
  obtain ⟨rest, hrest⟩ := hbytes
  have hlookup : lookupByOpcode b = lookupByOpcode (opcodeByteOf i) :=
    congrArg romEntry (opcodeNibble_eq_of_nibble hb)
  have hinstr := decode_instr?_of_lookupByOpcode hlookup [o]
  rw [← hrest, decode_encode] at hinstr
  cases hd : decode [b, o] with
  | ok j rest' =>
    rw [hd] at hinstr
    cases hinstr
    exact ⟨rest, rfl⟩
  | error e =>
    rw [hd] at hinstr
    cases hinstr

namespace Machine

theorem runsTo_of_fetches {s u : State} {i : Instr} {op : Nat} (h : s.fetches op)
    (hop : (opcodeByteOf i).toNat / 16 = op) (ho : ∀ a ∈ operandOf i, a = s.operand)
    (hu : exec i ((startStep s).setPc (s.pc + BitVec.ofNat 8 (instrLength i))) = .next u) : runsTo s i u :=
  ⟨exists_decode_two_of_nibble (h.2.trans hop.symm) ho, hu⟩

/-- The wrap halt on an engine that `exec` left Running (R148). -/
theorem endStep_of_running {s u : State} (len : Nat) (hu : u.run = .running) :
    endStep (decide (256 ≤ s.pc.toNat + len)) u = u.setRun (s.runAfter len) := by
  rw [endStep, State.runAfter]
  simp only [decide_eq_true_eq]
  split
  · rfl
  · rw [← hu]
    rfl

/-- The whole step of an instruction other than HLT: what `exec` leaves, with RUN by the wrap (R147, R148). -/
theorem step_of_runsTo {s u : State} {i : Instr} (hf : s.fault = .none) (hr : runsTo s i u) (hi : i ≠ .hlt) :
    step s = .next (u.setRun (s.runAfter (instrLength i))) := by
  have hrun : u.run = .running := by rw [run_of_runsTo hr, if_neg hi]
  obtain ⟨⟨rest, hd⟩, hu⟩ := hr
  rw [step_ready hf hd, hu, mapNext_next, endStep_of_running _ hrun]

/-- The flag unit in the numbers of the spec (R37, R38, R151). -/
theorem writeResult_eq (s : State) (r : Byte) :
    s.writeResult r = { s with ac := r, n := decide (128 ≤ r.toNat), z := decide (r.toNat = 0) } := by
  rw [State.writeResult, negativeFlag_eq, zeroFlag_eq]

end Machine
end Sys2Proof
end

section
/-! The statements of the family `41_load_store.md`, settled. -/

namespace Sys2Proof.Machine

/-- Settles O11: `exec` of STA finds AC as it was before the step, and writes memory alone. -/
theorem staStep : Obligations.StaStep := by
  intro s h
  have hr := runsTo_of_fetches (i := .sta s.operand) h (by simp [opcodeByteOf]) (by simp [operandOf]) (exec_sta _ _)
  exact step_of_runsTo h.1 hr (by simp)

/-- Settles O12: `exec` of LDA goes through the flag unit with the byte of the operand's cell. -/
theorem ldaStep : Obligations.LdaStep := by
  intro s h
  have hr := runsTo_of_fetches (i := .lda s.operand) h (by simp [opcodeByteOf]) (by simp [operandOf]) (exec_lda _ _)
  rw [writeResult_eq] at hr
  exact step_of_runsTo h.1 hr (by simp)

/-- Settles O18: STA is one write of memory, LDA one use of the flag unit. -/
theorem loadAndStoreComplete : Obligations.LoadAndStoreComplete := by
  intro a s
  refine ⟨⟨_, exec_sta a s, ?_, fun b hb => ?_, rfl⟩,
    ⟨_, exec_lda a s, rfl, negativeFlag_eq _, zeroFlag_eq _, rfl⟩⟩
  · exact (writeChangesOneCell ..).trans (if_pos rfl)
  · exact (writeChangesOneCell ..).trans (if_neg hb)

end Sys2Proof.Machine
end

section
/-! SUPPORT. The step of a flag writer, in the number that its result stands for. -/

namespace Sys2Proof.Machine

/-- The flag unit on a byte whose value is the number `r` (R37, R38, R151). -/
theorem writeResult_of_toNat_eq (s : State) {b : Byte} {r : Nat} (hb : b.toNat = r) :
    s.writeResult b = { s with ac := BitVec.ofNat 8 r, n := decide (128 ≤ r), z := decide (r = 0) } := by
  subst hb
  rw [writeResult_eq, BitVec.ofNat_toNat, BitVec.setWidth_eq]

/-- The whole step of a fetched flag writer that sends a byte of value `r` through the flag unit (R147, R148, R151). -/
theorem step_of_fetches_writesFlags {s : State} {i : Instr} {op r : Nat} {b : Byte} (h : s.fetches op)
    (hop : (opcodeByteOf i).toNat / 16 = op) (ho : ∀ a ∈ operandOf i, a = s.operand) (hi : i.writesFlags = true)
    (hexec : let u := (startStep s).setPc (s.pc + BitVec.ofNat 8 (instrLength i)); exec i u = .next (u.writeResult b))
    (hb : b.toNat = r) :
    step s = .next { s with
      pc := s.pc + BitVec.ofNat 8 (instrLength i), run := s.runAfter (instrLength i),
      ac := BitVec.ofNat 8 r, n := decide (128 ≤ r), z := decide (r = 0) } := by
  have hhlt : i ≠ .hlt := by
    rintro rfl
    cases hi
  have hr := runsTo_of_fetches h hop ho hexec
  rw [writeResult_of_toNat_eq _ hb] at hr
  exact step_of_runsTo h.1 hr hhlt

end Sys2Proof.Machine
end

section
/-! The statements of the family `42_alu.md`, settled. -/

namespace Sys2Proof.Machine

/-- Settles O13: ADD sends the sum mod 256 through the flag unit. -/
theorem addStep : Obligations.AddStep := fun s h =>
  step_of_fetches_writesFlags (i := .add s.operand) h (by simp [opcodeByteOf]) (by simp [operandOf]) rfl (exec_add _ _)
    (alu_add_toNat s.ac (s.mem.read s.operand))

/-- Settles O14: OR and AND send the bitwise or / and through the flag unit. -/
theorem orAndStep : Obligations.OrAndStep := fun s =>
  ⟨fun h => step_of_fetches_writesFlags (i := .or s.operand) h (by simp [opcodeByteOf]) (by simp [operandOf]) rfl
      (exec_or _ _) (BitVec.toNat_or s.ac (s.mem.read s.operand)),
    fun h => step_of_fetches_writesFlags (i := .and s.operand) h (by simp [opcodeByteOf]) (by simp [operandOf]) rfl
      (exec_and _ _) (BitVec.toNat_and s.ac (s.mem.read s.operand))⟩

/-- Settles O15: NOT sends the complement through the flag unit; it has no operand byte. -/
theorem notStep : Obligations.NotStep := fun s h =>
  step_of_fetches_writesFlags (i := .not) h (by simp [opcodeByteOf]) (by simp [operandOf]) rfl (exec_not _)
    (alu_not_toNat s.ac 0)

/-- Settles O19: each is one use of the flag unit, on the ALU's result. -/
theorem arithmeticCompletes : Obligations.ArithmeticCompletes := fun a s =>
  ⟨⟨_, exec_add a s, alu_add_toNat _ _, writeResult_flagsAgree _ _, rfl⟩,
    ⟨_, exec_or a s, BitVec.toNat_or .., writeResult_flagsAgree _ _, rfl⟩,
    ⟨_, exec_and a s, BitVec.toNat_and .., writeResult_flagsAgree _ _, rfl⟩,
    ⟨_, exec_not s, alu_not_toNat _ 0, writeResult_flagsAgree _ _, rfl⟩⟩

end Sys2Proof.Machine
end

section
/-! SUPPORT. The step of an instruction whose execute part moves PC and nothing else. -/

namespace Sys2Proof.Machine

/-- The whole step of such an instruction: RUN is by the wrap of the fetch, wherever `exec` puts PC (R147, R148). -/
theorem step_of_fetches_setPc {s : State} {i : Instr} {op : Nat} {v : Byte} (h : s.fetches op)
    (hop : (opcodeByteOf i).toNat / 16 = op) (ho : ∀ a ∈ operandOf i, a = s.operand) (hi : i ≠ .hlt)
    (hexec : let u := (startStep s).setPc (s.pc + BitVec.ofNat 8 (instrLength i)); exec i u = .next (u.setPc v)) :
    step s = .next { s with pc := v, run := s.runAfter (instrLength i) } :=
  step_of_runsTo h.1 (runsTo_of_fetches h hop ho hexec) hi

end Sys2Proof.Machine
end

section
/-! The statements of the family `43_control.md`, settled. -/

namespace Sys2Proof.Machine

/-- Settles O16: `exec` finds N and Z as they were before the step, and PC past the operand. -/
theorem jumpSteps : Obligations.JumpSteps := fun s =>
  ⟨fun h => step_of_fetches_setPc (i := .jmp s.operand) h (by simp [opcodeByteOf]) (by simp [operandOf]) (by simp)
      (exec_jmp _ _),
    fun h => step_of_fetches_setPc (i := .jn s.operand) h (by simp [opcodeByteOf]) (by simp [operandOf]) (by simp)
      (exec_jn _ _),
    fun h => step_of_fetches_setPc (i := .jz s.operand) h (by simp [opcodeByteOf]) (by simp [operandOf]) (by simp)
      (exec_jz _ _)⟩

/-- Settles O20: each writes PC alone; a jump that is not taken writes back the PC that stands. -/
theorem jumpsComplete : Obligations.JumpsComplete := fun a s => ⟨exec_jmp a s, exec_jn a s, exec_jz a s⟩

end Sys2Proof.Machine
end

section
/-! SUPPORT. The step of HLT, which the wrap halt finds halted. -/

namespace Sys2Proof.Machine

/-- The wrap halt adds nothing on an engine that `exec` left Halted (R148). -/
theorem endStep_of_halted {u : State} (wrap : Bool) (hu : u.run = .halted) : endStep wrap u = u := by
  cases wrap with
  | false => rfl
  | true =>
    change { u with run := .halted } = u
    rw [← hu]

/-- The whole step of HLT: what `exec` leaves, wrap or not (R147, R148, R211). -/
theorem step_of_runsTo_hlt {s u : State} (hf : s.fault = .none) (hr : runsTo s .hlt u) : step s = .next u := by
  have hrun : u.run = .halted := by rw [run_of_runsTo hr, if_pos rfl]
  obtain ⟨⟨rest, hd⟩, hu⟩ := hr
  rw [step_ready hf hd, hu, mapNext_next, endStep_of_halted _ hrun]

end Sys2Proof.Machine
end

section
/-! The statements of the family `44_system.md`, settled. -/

namespace Sys2Proof.Machine

/-- Settles O17: past the fetch NOP changes nothing, and HLT only RUN. -/
theorem nopAndHltSteps : Obligations.NopAndHltSteps := by
  refine fun s => ⟨fun h => ?_, fun h => ?_⟩
  · have hr := runsTo_of_fetches (i := .nop) h (by simp [opcodeByteOf]) (by simp [operandOf]) (exec_nop _)
    exact step_of_runsTo h.1 hr (by simp)
  · have hr := runsTo_of_fetches (i := .hlt) h (by simp [opcodeByteOf]) (by simp [operandOf]) (exec_hlt _)
    exact step_of_runsTo_hlt h.1 hr

/-- Settles O21: NOP writes nothing, HLT writes RUN alone. -/
theorem nopAndHltComplete : Obligations.NopAndHltComplete := fun s => ⟨exec_nop s, exec_hlt s⟩

end Sys2Proof.Machine
end

section
/-! SUPPORT. FAULT after a step, and after a transaction of the host. -/

namespace Sys2Proof.Machine

/-- An instruction keeps FAULT, so the opcode byte alone decides it (R221, R222). -/
theorem step_fault_eq {s t : State} (hf : s.fault = .none) (h : step s = .next t) :
    t.fault =
      if illegalOpcode (s.mem.read s.pc) then .decodeFault s.pc (s.mem.read s.pc) else .none := by
  rcases next_cases h with ⟨hfault, _⟩ | ⟨_, hop, rfl⟩ | ⟨hl, i, u, hr, rfl⟩
  · exact absurd hf hfault
  · rw [hop, State.raiseDecodeFault_fault, if_pos rfl]
  · rw [hl.2, endStep_fault, exec_fault hr.2, State.setPc_fault, startStep_fault, hf]
    rfl

/-- A run with a fault recorded returns it at once (R153). -/
theorem runs_faulted {s : State} {a o : Byte} (hf : s.fault = .decodeFault a o) (t : State) (r : StepResult) :
    Runs s t r ↔ t = s ∧ r = .decodeFault a o := by
  obtain ⟨-, -, -, hruns⟩ := runRepeatsSteps
  exact hruns s t r a o hf

/-- A recorded fault holds the step and the run (R141, R153), and the transactions that load, clear or show memory
write no register (R224). -/
theorem transacts_keeps_recorded_fault {c : Config} {x : Transaction} {s t : State} {y : Reply} {a o : Byte}
    (h : Transacts c x s t y) (hf : s.fault = .decodeFault a o) (hreset : x ≠ .reset) (hclear : x ≠ .clearRegisters) :
    t.fault = .decodeFault a o := by
  have hmemoryOnly := hostLeavesRegisters c x s t y h
  cases h with
  | reset => exact absurd rfl hreset
  | clearRegisters => exact absurd rfl hclear
  | step hstep => rwa [step_unique hstep (step_faulted hf)]
  | run hrun => rwa [((runs_faulted hf _ _).1 hrun).1]
  | clearMemory | commitAssembly | loadImage | saveImage | read =>
    obtain ⟨ht, -⟩ := hmemoryOnly (by simp)
    exact (congrArg State.fault ht).trans hf

end Sys2Proof.Machine
end

section
/-! The statements of the family `60_exceptions.md`, settled. -/

namespace Sys2Proof.Machine

/-- Settles O29: FAULT after the step is by the opcode byte, and the illegal bytes are those of the five nibbles. -/
theorem decodeFaultCause : Obligations.DecodeFaultCause := by
  intro s t hf h
  rw [step_fault_eq hf h, ← illegalOpcode_iff_nibble]
  cases illegalOpcode (s.mem.read s.pc) <;> simp

/-- Settles O30: the step, its result and its accesses each have their case of an illegal byte. -/
theorem decodeFaultEffect : Obligations.DecodeFaultEffect :=
  fun _ hf hop => ⟨step_illegal hf hop, stepResult_illegal hf hop, stepAccesses_illegal hf hop⟩

/-- Settles O31: the fault is looked at before the fetch, and a result other than Continue ends a run. -/
theorem faultIsSticky : Obligations.FaultIsSticky :=
  fun _ _ _ hf =>
    ⟨step_faulted hf, stepResult_faulted hf, stepAccesses_faulted (by simp [hf]), runs_faulted hf⟩

/-- Settles O32: reset and clear registers write FAULT, and every other transaction keeps a recorded fault. -/
theorem onlyResetAndClearRegistersClearFault : Obligations.OnlyResetAndClearRegistersClearFault := by
  intro c x s t y h hrecorded
  constructor
  · intro hnone
    by_contra hx
    obtain ⟨hreset, hclear⟩ := not_or.1 hx
    cases hf : s.fault with
    | none => exact hrecorded hf
    | decodeFault a o =>
      have hkept := transacts_keeps_recorded_fault h hf hreset hclear
      cases hnone.symm.trans hkept
  · rintro (rfl | rfl) <;> cases h <;> rfl

end Sys2Proof.Machine
end

section
/-! SUPPORT. The image file as its magic and its value/padding pairs (R262, R264), and the presets as cells. -/

namespace Sys2Proof.Machine

/-! ## Cells -/

theorem Memory.read_write (m : Memory) (a v b : Byte) : (m.write a v).read b = if b = a then v else m.read b :=
  writeChangesOneCell m a v b

/-- The presets of R70 over any memory: each is a cell of its own. -/
theorem Memory.read_writePresets (m : Memory) (a : Byte) :
    m.writePresets.read a = if a = 128 then 4 else if a = 129 then 8 else if a = 130 then 2 else m.read a := by
  simp only [Memory.writePresets, Memory.read_write]
  by_cases h128 : a = 128
  · simp [h128]
  · by_cases h129 : a = 129
    · simp [h129]
    · simp only [if_neg h128, if_neg h129]

@[simp] theorem Memory.length_cells (m : Memory) : m.cells.length = 256 := by
  simp [Memory.cells, Memory.addresses]

theorem Memory.getElem?_cells (m : Memory) (a : Byte) : m.cells[a.toNat]? = some (m.read a) := by
  simp [Memory.cells, Memory.addresses, List.getElem?_range a.isLt]

/-- All 256 cells written in order make any memory read as the one they came from. -/
theorem read_writeCells_cells (m m' : Memory) (a : Byte) : (writeCells 0 m.cells m').read a = m.read a := by
  rw [lookup_writeCells 0 _ _ _ (by simp), if_pos (Nat.zero_le _), Nat.sub_zero, m.getElem?_cells, Option.getD_some]

/-! ## Pairs -/

/-- The bytes of value/padding pairs, in file order (R262). -/
def pairBytes (pairs : List (Byte × Byte)) : List Byte := pairs.flatMap fun p => [p.1, p.2]

theorem pairBytes_cons (p : Byte × Byte) (pairs : List (Byte × Byte)) :
    pairBytes (p :: pairs) = p.1 :: p.2 :: pairBytes pairs := rfl

theorem length_pairBytes (pairs : List (Byte × Byte)) : (pairBytes pairs).length = 2 * pairs.length := by
  induction pairs with
  | nil => rfl
  | cons p pairs ih => simp only [pairBytes_cons, List.length_cons, ih]; omega

/-- Pair `n` stands at `2n`, its value first. -/
theorem getElem?_pairBytes (pairs : List (Byte × Byte)) (n : Nat) :
    (pairBytes pairs)[2 * n]? = pairs[n]?.map Prod.fst ∧ (pairBytes pairs)[2 * n + 1]? = pairs[n]?.map Prod.snd := by
  induction pairs generalizing n with
  | nil => exact ⟨rfl, rfl⟩
  | cons p pairs ih =>
    cases n with
    | zero => exact ⟨rfl, rfl⟩
    | succ n => exact ih n

/-- Reading pairs keeps the values and drops the padding (R264). -/
theorem pairValues_pairBytes (pairs : List (Byte × Byte)) : pairValues (pairBytes pairs) = pairs.map Prod.fst := by
  induction pairs with
  | nil => rfl
  | cons p pairs ih => rw [pairBytes_cons, pairValues, ih, List.map_cons]

/-! ## The file -/

/-- The pairs of a saved memory: each cell with a padding byte 0 (R261). -/
def savedPairs (m : Memory) : List (Byte × Byte) := m.cells.map fun v => (v, 0)

theorem imageBytes_eq (m : Memory) : imageBytes m = imageMagic ++ pairBytes (savedPairs m) := by
  rw [imageBytes, pairBytes, savedPairs, List.flatMap_map]

theorem getElem?_savedPairs (m : Memory) (a : Byte) : (savedPairs m)[a.toNat]? = some (m.read a, 0) := by
  rw [savedPairs, List.getElem?_map, m.getElem?_cells, Option.map_some]

theorem map_fst_savedPairs (m : Memory) : (savedPairs m).map Prod.fst = m.cells := by
  rw [savedPairs, List.map_map]
  exact List.map_id m.cells

theorem length_imageBytes (m : Memory) : (imageBytes m).length = 516 := by
  rw [imageBytes_eq, List.length_append, length_pairBytes, savedPairs, List.length_map, m.length_cells]
  rfl

theorem take_imageBytes (m : Memory) : (imageBytes m).take 4 = imageMagic := rfl

/-- The pairs begin behind the four bytes of magic. -/
theorem getElem?_imageBytes (m : Memory) (n : Nat) :
    (imageBytes m)[4 + n]? = (pairBytes (savedPairs m))[n]? := by
  rw [imageBytes_eq, List.getElem?_append_right (Nat.le_add_right 4 n)]
  exact congrArg _ (Nat.add_sub_cancel_left 4 n)

theorem getElem?_imageBytes_cell (m : Memory) (a : Byte) :
    (imageBytes m)[4 + 2 * a.toNat]? = some (m.read a) ∧ (imageBytes m)[5 + 2 * a.toNat]? = some 0 := by
  obtain ⟨hvalue, hpadding⟩ := getElem?_pairBytes (savedPairs m) a.toNat
  rw [getElem?_savedPairs] at hvalue hpadding
  rw [show 5 + 2 * a.toNat = 4 + (2 * a.toNat + 1) by omega, getElem?_imageBytes, getElem?_imageBytes]
  exact ⟨hvalue, hpadding⟩

/-! ## Loading and committing -/

theorem loadImageBytes_of_pairs (pairs : List (Byte × Byte)) (m : Memory) :
    loadImageBytes (imageMagic ++ pairBytes pairs) m = some (writeCells 0 (pairs.map Prod.fst) m) := by
  rw [← pairValues_pairBytes]
  rfl

theorem loadImage_of_pairs (pairs : List (Byte × Byte)) (s : State) :
    loadImage (.bytes (imageMagic ++ pairBytes pairs)) s =
      ({ s with mem := writeCells 0 (pairs.map Prod.fst) s.mem }, .loaded) := by
  rw [loadImage, loadImageBytes_of_pairs]

theorem loadImage_of_take_ne {file : List Byte} (h : file.take 4 ≠ imageMagic) (s : State) :
    loadImage (.bytes file) s = (s, .fileFormatMismatch) := by
  rw [loadImage, loadImageBytes, if_neg h]

/-- R124: any diagnostic makes the assembly fail. -/
theorem assemble_success_of_diagnostics {source : List Char} (h : (assemble source).diagnostics ≠ []) :
    (assemble source).success = false :=
  List.isEmpty_eq_false_iff.2 h

end Sys2Proof.Machine
end

section
/-! The statements of the family `70_reset_and_hazards.md`, settled. -/

namespace Sys2Proof.Machine

/-- Settles O54: pair `a` of the saved pairs is cell `a` with its padding, and a save answers its report alone. -/
theorem savedImageLayout : Obligations.SavedImageLayout := by
  intro s
  refine ⟨length_imageBytes s.mem, take_imageBytes s.mem, getElem?_imageBytes_cell s.mem, ?_⟩
  intro c t y h
  cases h
  exact ⟨rfl, rfl⟩

/-- Settles O55: the load writes every cell, and canonical memories that read alike are equal. -/
theorem loadOfSaveIsIdentity : Obligations.LoadOfSaveIsIdentity := by
  intro m m' hm hm'
  rw [imageBytes_eq, loadImageBytes_of_pairs, map_fst_savedPairs]
  exact congrArg some (Memory.ext_read (writeCells_wf 0 _ hm') hm (read_writeCells_cells m m'))

/-- Settles O56: with the magic the values of the pairs are written from cell 0 on. -/
theorem loadImageEffect : Obligations.LoadImageEffect := by
  refine ⟨fun file s h => loadImage_of_take_ne h s, fun pairs s hlen => ?_⟩
  have hload := loadImage_of_pairs pairs s
  rw [pairBytes] at hload
  rw [hload]
  refine ⟨rfl, rfl, fun a => ?_⟩
  rw [lookup_writeCells 0 _ _ _ (by simpa using hlen), if_pos (Nat.zero_le _), Nat.sub_zero]

/-- Settles O40: the memory after reset lists no cell, so each reads as the power-on content. -/
theorem resetState : Obligations.ResetState := by
  have hinv : State.reset.Inv := inv_of_resetRegisters (c := Config.decided) rfl rfl Memory.wf_nil
  exact ⟨rfl, rfl, rfl, rfl, rfl, rfl, fun a => Memory.lookup_nil a.toNat, hinv⟩

/-- Settles O46: clear memory fills with 0, and then writes the presets or does not. -/
theorem clearTransactions : Obligations.ClearTransactions := by
  intro c s t y
  constructor
  · intro h
    cases h
    rfl
  · intro h
    cases h
    refine ⟨rfl, fun a => ?_⟩
    rw [State.clearMemory_mem]
    cases c.clearMemoryRestoresPresets with
    | false => simp [Memory.read_fill]
    | true => simp [Memory.read_writePresets, Memory.read_fill]

/-- Settles O49: only a successful assembly is committed. -/
theorem failedAssemblyChangesNothing : Obligations.FailedAssemblyChangesNothing := by
  intro source s h
  simp [commitAssembly, assemble_success_of_diagnostics h]

/-- Settles O57: a load and a save that fail each answer the state they were given. -/
theorem ioFailureChangesNothing : Obligations.IoFailureChangesNothing := by
  intro c s t y
  constructor
  · intro h
    cases h
    exact ⟨rfl, rfl⟩
  · intro h
    cases h
    exact ⟨rfl, rfl⟩

end Sys2Proof.Machine
end
